-- ==== Sys2Proof/Word.lean ====
section
/-!
DEFINITION. The machine's value types (00_scope.md rules R6, R8): u8, u12, u16 as bit vectors, u4 register
fields as indices. Everything is unsigned (R8).
-/
namespace Sys2Proof

/-- u8: a general register, a timer, a memory cell, an immediate (R8). -/
abbrev Byte := BitVec 8

/-- u16: PC, I, a stack slot, an instruction word (R8). -/
abbrev Word := BitVec 16

/-- u12: the address field `nnn` (R8, R74). -/
abbrev Addr := BitVec 12

/-- A register index: the u4 field `x` or `y` selects any of V0-VF (R15, R77). -/
abbrev Reg := Fin 16

/-- VF, the flag register, is register 15 (R16). -/
abbrev VF : Reg := 15

end Sys2Proof
end

