-- ==== Sys2Proof/Syntax.lean ====
section
/-!
DEFINITION. The instructions: one constructor for each of the 35 rows of 30_encoding.md rule R70, "one tag per
instruction form" (R81), with its operand fields at the widths of R68. The field types carry the bounds, so every
term is a legal instruction: the decoder checks nothing but the bit pattern (R78).
-/
namespace Sys2Proof

/-- The instructions, in the order of R70. -/
inductive Instr where
  /-- `NOP` 0000 (R99) -/
  | nop
  /-- `CLS` 00E0 (R129) -/
  | cls
  /-- `RET` 00EE (R100) -/
  | ret
  /-- `JP nnn` 1nnn (R101) -/
  | jp (nnn : Addr)
  /-- `CALL nnn` 2nnn (R102) -/
  | call (nnn : Addr)
  /-- `SE Vx, nn` 3xnn (R106) -/
  | seImm (x : Reg) (nn : Byte)
  /-- `SNE Vx, nn` 4xnn (R107) -/
  | sneImm (x : Reg) (nn : Byte)
  /-- `SE Vx, Vy` 5xy0 (R108) -/
  | seReg (x y : Reg)
  /-- `LD Vx, nn` 6xnn (R110) -/
  | ldImm (x : Reg) (nn : Byte)
  /-- `ADD Vx, nn` 7xnn (R111) -/
  | addImm (x : Reg) (nn : Byte)
  /-- `LD Vx, Vy` 8xy0 (R112) -/
  | ldReg (x y : Reg)
  /-- `OR Vx, Vy` 8xy1 (R113) -/
  | orReg (x y : Reg)
  /-- `AND Vx, Vy` 8xy2 (R114) -/
  | andReg (x y : Reg)
  /-- `XOR Vx, Vy` 8xy3 (R115) -/
  | xorReg (x y : Reg)
  /-- `ADD Vx, Vy` 8xy4 (R116) -/
  | addReg (x y : Reg)
  /-- `SUB Vx, Vy` 8xy5 (R117) -/
  | subReg (x y : Reg)
  /-- `SHR Vx` 8xy6 (R118): `y` is kept as the word holds it and has no effect (R76; log 2) -/
  | shr (x y : Reg)
  /-- `SUBN Vx, Vy` 8xy7 (R119) -/
  | subnReg (x y : Reg)
  /-- `SHL Vx` 8xyE (R120): `y` is kept as the word holds it and has no effect (R76; log 2) -/
  | shl (x y : Reg)
  /-- `SNE Vx, Vy` 9xy0 (R109) -/
  | sneReg (x y : Reg)
  /-- `LD I, nnn` Annn (R123) -/
  | ldI (nnn : Addr)
  /-- `JP V0, nnn` Bnnn (R103) -/
  | jpV0 (nnn : Addr)
  /-- `RND Vx, nn` Cxnn (R121) -/
  | rnd (x : Reg) (nn : Byte)
  /-- `DRW Vx, Vy, n` Dxyn (R130): `n` is the number of sprite rows, 0 to 15 (R75) -/
  | drw (x y : Reg) (n : Fin 16)
  /-- `SKP Vx` Ex9E (R132) -/
  | skp (x : Reg)
  /-- `SKNP Vx` ExA1 (R133) -/
  | sknp (x : Reg)
  /-- `LD Vx, DT` Fx07 (R135) -/
  | ldVxDt (x : Reg)
  /-- `LD Vx, K` Fx0A (R134) -/
  | ldVxK (x : Reg)
  /-- `LD DT, Vx` Fx15 (R136) -/
  | ldDtVx (x : Reg)
  /-- `LD ST, Vx` Fx18 (R137) -/
  | ldStVx (x : Reg)
  /-- `ADD I, Vx` Fx1E (R124) -/
  | addI (x : Reg)
  /-- `LD F, Vx` Fx29 (R125) -/
  | ldF (x : Reg)
  /-- `LD B, Vx` Fx33 (R126) -/
  | ldB (x : Reg)
  /-- `LD [I], Vx` Fx55 (R127) -/
  | ldMemVx (x : Reg)
  /-- `LD Vx, [I]` Fx65 (R128) -/
  | ldVxMem (x : Reg)
deriving DecidableEq, Repr

end Sys2Proof
end

