-- ==== Sys2Proof/WellFormed.lean ====
section
/-!
DEFINITION. Well-formed instruction words: the mask-and-match table of 30_encoding.md rule R70, copied row by row
from the spec and used by no decoder, so that the decoder can be held against it. A term of `Instr` is well-formed
by its field types (Syntax.lean); what can be ill-formed is a WORD, and the check on it is "some row matches" (R79).
-/
namespace Sys2Proof

/-- A row of R70: its number, its match value and its mask. -/
structure OpcodeRow where
  num     : Nat
  pattern : Word
  mask    : Word
deriving DecidableEq, Repr

/-- `w AND mask = match` (R70). -/
def OpcodeRow.hits (r : OpcodeRow) (w : Word) : Bool := w &&& r.mask == r.pattern

/-- Rows 1-8: families 0 to 5 (R70). -/
def opcodeRowsA : List OpcodeRow :=
  [⟨1, 0x0000, 0xFFFF⟩, ⟨2, 0x00E0, 0xFFFF⟩, ⟨3, 0x00EE, 0xFFFF⟩, ⟨4, 0x1000, 0xF000⟩,
   ⟨5, 0x2000, 0xF000⟩, ⟨6, 0x3000, 0xF000⟩, ⟨7, 0x4000, 0xF000⟩, ⟨8, 0x5000, 0xF00F⟩]

/-- Rows 9-20: families 6 to 9 (R70). -/
def opcodeRowsB : List OpcodeRow :=
  [⟨9, 0x6000, 0xF000⟩, ⟨10, 0x7000, 0xF000⟩, ⟨11, 0x8000, 0xF00F⟩, ⟨12, 0x8001, 0xF00F⟩,
   ⟨13, 0x8002, 0xF00F⟩, ⟨14, 0x8003, 0xF00F⟩, ⟨15, 0x8004, 0xF00F⟩, ⟨16, 0x8005, 0xF00F⟩,
   ⟨17, 0x8006, 0xF00F⟩, ⟨18, 0x8007, 0xF00F⟩, ⟨19, 0x800E, 0xF00F⟩, ⟨20, 0x9000, 0xF00F⟩]

/-- Rows 21-26: families A to E (R70). -/
def opcodeRowsC : List OpcodeRow :=
  [⟨21, 0xA000, 0xF000⟩, ⟨22, 0xB000, 0xF000⟩, ⟨23, 0xC000, 0xF000⟩, ⟨24, 0xD000, 0xF000⟩,
   ⟨25, 0xE09E, 0xF0FF⟩, ⟨26, 0xE0A1, 0xF0FF⟩]

/-- Rows 27-35: family F (R70). -/
def opcodeRowsD : List OpcodeRow :=
  [⟨27, 0xF007, 0xF0FF⟩, ⟨28, 0xF00A, 0xF0FF⟩, ⟨29, 0xF015, 0xF0FF⟩, ⟨30, 0xF018, 0xF0FF⟩,
   ⟨31, 0xF01E, 0xF0FF⟩, ⟨32, 0xF029, 0xF0FF⟩, ⟨33, 0xF033, 0xF0FF⟩, ⟨34, 0xF055, 0xF0FF⟩,
   ⟨35, 0xF065, 0xF0FF⟩]

/-- The decode table of R70. -/
def opcodeTable : List OpcodeRow := opcodeRowsA ++ opcodeRowsB ++ opcodeRowsC ++ opcodeRowsD

/-- A word is well-formed when some row of R70 matches it; every other word is an unknown opcode (R79). -/
def wordWellFormed (w : Word) : Bool := opcodeTable.any (·.hits w)

/-- The number of an instruction's row in R70. -/
def Instr.rowNum : Instr → Nat
  | .nop => 1
  | .cls => 2
  | .ret => 3
  | .jp _ => 4
  | .call _ => 5
  | .seImm _ _ => 6
  | .sneImm _ _ => 7
  | .seReg _ _ => 8
  | .ldImm _ _ => 9
  | .addImm _ _ => 10
  | .ldReg _ _ => 11
  | .orReg _ _ => 12
  | .andReg _ _ => 13
  | .xorReg _ _ => 14
  | .addReg _ _ => 15
  | .subReg _ _ => 16
  | .shr _ _ => 17
  | .subnReg _ _ => 18
  | .shl _ _ => 19
  | .sneReg _ _ => 20
  | .ldI _ => 21
  | .jpV0 _ => 22
  | .rnd _ _ => 23
  | .drw _ _ _ => 24
  | .skp _ => 25
  | .sknp _ => 26
  | .ldVxDt _ => 27
  | .ldVxK _ => 28
  | .ldDtVx _ => 29
  | .ldStVx _ => 30
  | .addI _ => 31
  | .ldF _ => 32
  | .ldB _ => 33
  | .ldMemVx _ => 34
  | .ldVxMem _ => 35

end Sys2Proof
end

