-- ==== Sys2Proof/Decode.lean ====
section
/-!
DEFINITION. The decoder of 30_encoding.md rules R68-R81, total on any bytes, and the encoder written from the same
formats (R69). The decoder dispatches on the first nibble and then on the family's discriminating nibbles (R71);
the encoder lays the fields at their bit positions.
-/
namespace Sys2Proof

/-- Nibble 1, `op = w[15:12]`, the family (R68). -/
def opField (w : Word) : BitVec 4 := w.extractLsb' 12 4

/-- Nibble 2, `x = w[11:8]` (R68). -/
def xField (w : Word) : Reg := (w.extractLsb' 8 4).toFin

/-- Nibble 3, `y = w[7:4]` (R68). -/
def yField (w : Word) : Reg := (w.extractLsb' 4 4).toFin

/-- Nibble 4 as bits: the sub-function of families 5, 8 and 9 (R68). -/
def nBits (w : Word) : BitVec 4 := w.extractLsb' 0 4

/-- Nibble 4 as a number: the sprite height `n = w[3:0]` (R68, R75). -/
def nField (w : Word) : Fin 16 := (nBits w).toFin

/-- `nn = w[7:0]`: the immediate, or the sub-function of families E and F (R68, R73). -/
def nnField (w : Word) : Byte := w.extractLsb' 0 8

/-- `nnn = w[11:0]` (R68, R74). -/
def nnnField (w : Word) : Addr := w.extractLsb' 0 12

/-- Why bytes do not decode: `Unknown(w)` of R71, R79, or fewer than the two bytes of an instruction (R67). -/
inductive DecodeError where
  /-- the word matches no row of R70 (R79); step turns it into the fault UnknownOpcode -/
  | unknownOpcode (w : Word)
  /-- fewer than two bytes were given; a step never meets it, since a fetch reads two bytes (R85) -/
  | truncated
deriving DecidableEq, Repr

/-- Family 0: three whole words, everything else unknown (R71, R79). -/
def decodeFamily0 (w : Word) : Option Instr :=
  if w = 0x0000#16 then some .nop
  else if w = 0x00E0#16 then some .cls
  else if w = 0x00EE#16 then some .ret
  else none

/-- Family 8: nibble 4 selects the operation (R70 rows 11-19). -/
def decodeFamily8 (w : Word) : Option Instr :=
  let x := xField w
  let y := yField w
  let n := nBits w
  if n = 0x0#4 then some (.ldReg x y)
  else if n = 0x1#4 then some (.orReg x y)
  else if n = 0x2#4 then some (.andReg x y)
  else if n = 0x3#4 then some (.xorReg x y)
  else if n = 0x4#4 then some (.addReg x y)
  else if n = 0x5#4 then some (.subReg x y)
  else if n = 0x6#4 then some (.shr x y)
  else if n = 0x7#4 then some (.subnReg x y)
  else if n = 0xE#4 then some (.shl x y)
  else none

/-- Family E: nibbles 3 and 4 together (R70 rows 25, 26). -/
def decodeFamilyE (w : Word) : Option Instr :=
  if nnField w = 0x9E#8 then some (.skp (xField w))
  else if nnField w = 0xA1#8 then some (.sknp (xField w))
  else none

/-- Family F: nibbles 3 and 4 together (R70 rows 27-35). -/
def decodeFamilyF (w : Word) : Option Instr :=
  let x := xField w
  let f := nnField w
  if f = 0x07#8 then some (.ldVxDt x)
  else if f = 0x0A#8 then some (.ldVxK x)
  else if f = 0x15#8 then some (.ldDtVx x)
  else if f = 0x18#8 then some (.ldStVx x)
  else if f = 0x1E#8 then some (.addI x)
  else if f = 0x29#8 then some (.ldF x)
  else if f = 0x33#8 then some (.ldB x)
  else if f = 0x55#8 then some (.ldMemVx x)
  else if f = 0x65#8 then some (.ldVxMem x)
  else none

/-- The row a word matches, or none (R71): dispatch on the family nibble. -/
def decodeRow (w : Word) : Option Instr :=
  let op := opField w
  if op = 0x0#4 then decodeFamily0 w
  else if op = 0x1#4 then some (.jp (nnnField w))
  else if op = 0x2#4 then some (.call (nnnField w))
  else if op = 0x3#4 then some (.seImm (xField w) (nnField w))
  else if op = 0x4#4 then some (.sneImm (xField w) (nnField w))
  else if op = 0x5#4 then (if nBits w = 0x0#4 then some (.seReg (xField w) (yField w)) else none)
  else if op = 0x6#4 then some (.ldImm (xField w) (nnField w))
  else if op = 0x7#4 then some (.addImm (xField w) (nnField w))
  else if op = 0x8#4 then decodeFamily8 w
  else if op = 0x9#4 then (if nBits w = 0x0#4 then some (.sneReg (xField w) (yField w)) else none)
  else if op = 0xA#4 then some (.ldI (nnnField w))
  else if op = 0xB#4 then some (.jpV0 (nnnField w))
  else if op = 0xC#4 then some (.rnd (xField w) (nnField w))
  else if op = 0xD#4 then some (.drw (xField w) (yField w) (nField w))
  else if op = 0xE#4 then decodeFamilyE w
  else decodeFamilyF w

/-- `decode(w)`: the instruction, or `Unknown(w)` (R71, R72). -/
def decodeWord (w : Word) : Except DecodeError Instr :=
  match decodeRow w with
  | some i => .ok i
  | none => .error (.unknownOpcode w)

/-- The instruction word of two bytes, `hi × 256 + lo`: the first byte is the high byte (R56, R85). -/
def wordOfBytes (hi lo : Byte) : Word := BitVec.ofNat 16 (hi.toNat * 256 + lo.toNat)

/-- The decoder on any bytes: one instruction is two bytes, big-endian; the rest is handed back (R56, R67). -/
def decodeBytes : List Byte → Except DecodeError (Instr × List Byte)
  | hi :: lo :: rest =>
    match decodeWord (wordOfBytes hi lo) with
    | .ok i => .ok (i, rest)
    | .error e => .error e
  | _ => .error .truncated

/-- The four bits of the sprite height (R68). -/
def nibble (k : Fin 16) : BitVec 4 := BitVec.ofFin k

/-- Format NNN: op, nnn (R69). -/
def formNNN (op : BitVec 4) (nnn : Addr) : Word := BitVec.ofNat 16 (op.toNat * 4096 + nnn.toNat)

/-- Format XNN: op, x, nn (R69). -/
def formXNN (op : BitVec 4) (x : Reg) (nn : Byte) : Word :=
  BitVec.ofNat 16 (op.toNat * 4096 + x.val * 256 + nn.toNat)

/-- Formats XYF and XYN: op, x, y, and the function nibble or the height (R69). -/
def formXYN (op : BitVec 4) (x y : Reg) (n : BitVec 4) : Word :=
  BitVec.ofNat 16 (op.toNat * 4096 + x.val * 256 + y.val * 16 + n.toNat)

/-- Format XF: op, x, the function byte (R69). -/
def formXF (op : BitVec 4) (x : Reg) (f : Byte) : Word := formXNN op x f

/-- The word of an instruction: the encoding column of R70. -/
def encode : Instr → Word
  | .nop => 0x0000
  | .cls => 0x00E0
  | .ret => 0x00EE
  | .jp nnn => formNNN 0x1 nnn
  | .call nnn => formNNN 0x2 nnn
  | .seImm x nn => formXNN 0x3 x nn
  | .sneImm x nn => formXNN 0x4 x nn
  | .seReg x y => formXYN 0x5 x y 0x0
  | .ldImm x nn => formXNN 0x6 x nn
  | .addImm x nn => formXNN 0x7 x nn
  | .ldReg x y => formXYN 0x8 x y 0x0
  | .orReg x y => formXYN 0x8 x y 0x1
  | .andReg x y => formXYN 0x8 x y 0x2
  | .xorReg x y => formXYN 0x8 x y 0x3
  | .addReg x y => formXYN 0x8 x y 0x4
  | .subReg x y => formXYN 0x8 x y 0x5
  | .shr x y => formXYN 0x8 x y 0x6
  | .subnReg x y => formXYN 0x8 x y 0x7
  | .shl x y => formXYN 0x8 x y 0xE
  | .sneReg x y => formXYN 0x9 x y 0x0
  | .ldI nnn => formNNN 0xA nnn
  | .jpV0 nnn => formNNN 0xB nnn
  | .rnd x nn => formXNN 0xC x nn
  | .drw x y n => formXYN 0xD x y (nibble n)
  | .skp x => formXF 0xE x 0x9E
  | .sknp x => formXF 0xE x 0xA1
  | .ldVxDt x => formXF 0xF x 0x07
  | .ldVxK x => formXF 0xF x 0x0A
  | .ldDtVx x => formXF 0xF x 0x15
  | .ldStVx x => formXF 0xF x 0x18
  | .addI x => formXF 0xF x 0x1E
  | .ldF x => formXF 0xF x 0x29
  | .ldB x => formXF 0xF x 0x33
  | .ldMemVx x => formXF 0xF x 0x55
  | .ldVxMem x => formXF 0xF x 0x65

/-- The high byte of a word, the one stored first (R56). -/
def hiByte (w : Word) : Byte := w.extractLsb' 8 8

/-- The low byte of a word, the one stored second (R56). -/
def loByte (w : Word) : Byte := w.extractLsb' 0 8

/-- A word as memory holds it, first byte first (R56). -/
def bytesOfWord (w : Word) : List Byte := [hiByte w, loByte w]

/-- The bytes of an instruction, as memory holds them (R56, R67). -/
def encodeBytes (i : Instr) : List Byte := bytesOfWord (encode i)

/-- The word whose bits the opcode table numbers: the low `nbits` bits of `w`, bit 0 the least significant bit of
the one 16-bit word; every bit above is zero. -/
def tableWord (nbits w : Nat) : Word := BitVec.ofNat 16 (w % 2 ^ nbits)

/-- The instruction the decoder reads from a table word, laid out in memory order and given to the decoder. -/
def decodeTableWord (nbits w : Nat) : Option Instr :=
  match decodeBytes (bytesOfWord (tableWord nbits w)) with
  | .ok (i, _) => some i
  | .error _ => none

end Sys2Proof
end

