-- ==== Sys2Proof/Config.lean ====
section
/-!
DEFINITION. The implementation parameters of 00_scope.md rule R6, and the one free value of the hardware,
the random byte of 40_fetch_step.md rule R94. The two parameters that R6 calls arguments are arguments here
too: `FONT` is an argument of reset (Machine/State.lean, log 1), `HOST_SCHEDULE` is a list of host operations
(Machine/HostOps.lean, log 4).
-/
namespace Sys2Proof.Config

/-- `MEM_SIZE`: addresses 0x000-0xFFF (R6, R47). -/
abbrev memSize : Nat := 4096

/-- `FONT_BASE` (R6, R45). -/
abbrev fontBase : Nat := 0x000

/-- `GLYPH_COUNT` (R6). -/
abbrev glyphCount : Nat := 16

/-- `GLYPH_BYTES` (R6, R125). -/
abbrev glyphBytes : Nat := 5

/-- The length of `FONT`: 16 glyphs of 5 bytes (R45). -/
abbrev fontBytes : Nat := glyphCount * glyphBytes

/-- `RESERVED_TOP`: the last address reserved for the interpreter (R6, R53); nothing enforces it (R54). -/
abbrev reservedTop : Nat := 0x1FF

/-- `PROG_BASE`: load address and reset PC (R6, R163); the address after the reserved region. -/
abbrev progBase : Nat := reservedTop + 1

/-- `MAX_ROM` = 4096 − 0x200 (R6, R65). -/
abbrev maxRom : Nat := memSize - progBase

/-- `INSN_BYTES` (R6, R67). -/
abbrev insnBytes : Nat := 2

/-- `STACK_CAP` (R6, R22). -/
abbrev stackCap : Nat := 16

/-- `FB_W` (R6, R28). -/
abbrev fbWidth : Nat := 64

/-- `FB_H` (R6, R28). -/
abbrev fbHeight : Nat := 32

/-- `NUM_KEYS` (R6, R27). -/
abbrev numKeys : Nat := 16

/-- `SHIFT_USES_VY`: false for this hardware, so SHR and SHL read Vx only (R6, R118, R120, D21; log 2). -/
abbrev shiftUsesVy : Bool := false

/-- The random byte of the k-th draw of `Machine.step`, which has no input: FREE. It has no body, so nothing can be
proved of its value. The step operation takes its random byte as an input instead (R34, R94, R121, D20; log 3). -/
opaque randomByte : Nat → Byte

end Sys2Proof.Config
end

