-- ==== Sys2Proof/Machine/State.lean ====
section
/-!
DEFINITION. The machine state of 10_state.md rule R13, as plain data, the six faults of 60_exceptions.md rules
R138-R145, the refusals, and the reset state (R37-R44).
-/
namespace Sys2Proof.Machine

/-- The 64 × 32 grid of cells: row y, column x; true is lit (R28). -/
abbrev Framebuffer := Vector (Vector Bool Config.fbWidth) Config.fbHeight

/-- Memory as data: the cells whose byte is not the reset byte, at strictly rising addresses (Machine/Ops.lean says
what an unlisted address reads as; log 6). -/
abbrev Memory := List Host.Cell

/-- The core's whole state (R13). -/
structure State where
  /-- V0-VF (R15, R16) -/
  v     : Vector Byte 16
  /-- the program counter (R18) -/
  pc    : Word
  /-- the index register I (R21) -/
  i     : Word
  /-- the sixteen return-address slots (R22) -/
  stack : Vector Word Config.stackCap
  /-- SP, an integer 0 to 16: the number of return addresses held (R23, R24) -/
  sp    : Fin (Config.stackCap + 1)
  /-- the delay timer DT (R25) -/
  dt    : Byte
  /-- the sound timer ST (R26) -/
  st    : Byte
  /-- the keypad latch (R27) -/
  keys  : Vector Bool Config.numKeys
  /-- the framebuffer (R28) -/
  fb    : Framebuffer
  /-- the 4096 bytes of memory (R30, R47) -/
  mem   : Memory
  /-- THE MODEL'S OWN FIELD, no state of the core (R34): it indexes the free byte that `Machine.step`, a function of the
  state alone, takes for the input r of R94; no host operation reads or writes it (log 3) -/
  draws : Nat
deriving DecidableEq, Repr

/-- A fault: its kind, its info and, for a fault of a step, the address A the step fetched from (R145).
All are safe: the spec says the operation ends so. -/
inductive Fault where
  /-- R139: raised by decode when the word matches no row of R70; safe -/
  | unknownOpcode (w : Word) (pc : Word)
  /-- R140: raised by CALL when SP = 16; info the return address that could not be pushed; safe -/
  | stackOverflow (ret : Word) (pc : Word)
  /-- R141: raised by RET when SP = 0; safe -/
  | stackUnderflow (pc : Word)
  /-- R142: raised by a fetch, DRW, LD B, LD [I] and LD Vx,[I] when an address is above 0xFFF; info the smallest such
  address, an unbounded natural number (R49, R52); safe -/
  | addressOutOfRange (addr : Nat) (pc : Word)
  /-- R143: raised by the load operation alone, info the image length; safe -/
  | romTooLarge (len : Nat)
  /-- R144: raised by SKP and SKNP when V[x] > 15, info V[x]; safe (D7 errs toward unprovable) -/
  | invalidKeyIndex (k : Byte) (pc : Word)
deriving DecidableEq, Repr

/-- A refusal: the model gives no transition. -/
inductive Refusal where
  /-- an arm of exec without a meaning; no arm raises it; safe -/
  | notModelled (mnemonic : String)
  /-- key_set with an index above 15, an operation the host may not issue (R156, D18; log 7); raised by the host
  operation key_set, never by an instruction; safe -/
  | noSuchKey (k : Nat)
deriving DecidableEq, Repr

/-- The outcome of an execute phase or of a step. -/
abbrev Result := Host.Outcome State Fault Refusal

/-- The state after reset (R37-R44, R162): PC is 0x200, everything else is cleared, and memory lists nothing, so it
reads as the reset contents: the font (default bytes, R46, log 1) at 0x000-0x04F and 0 elsewhere. -/
def State.reset : State where
  v     := Vector.replicate 16 0
  pc    := 0x200
  i     := 0
  stack := Vector.replicate Config.stackCap 0
  sp    := 0
  dt    := 0
  st    := 0
  keys  := Vector.replicate Config.numKeys false
  fb    := Vector.replicate Config.fbHeight (Vector.replicate Config.fbWidth false)
  mem   := []
  draws := 0

end Sys2Proof.Machine
end

