-- ==== Sys2Proof/Machine/Ops.lean ====
section
/-!
DEFINITION. The named operations that every meaning is written over: memory and its address decoder
(20_memory.md rules R47-R54), registers (10_state.md rules R15, R16), raising a fault (60_exceptions.md rules
R138-R146), the fetch unit (40_fetch_step.md rules R84, R85), the skip primitive (R91) and the call stack
(41_control_stack.md rules R96, R97).
-/
namespace Sys2Proof.Machine

/-! ### Memory -/

/-- Glyphs 0-7 of the default font (R46, G1; PRESUMED, log 1). -/
def defaultGlyphsLow : List Byte :=
  [0xF0, 0x90, 0x90, 0x90, 0xF0] ++ [0x20, 0x60, 0x20, 0x20, 0x70] ++
  [0xF0, 0x10, 0xF0, 0x80, 0xF0] ++ [0xF0, 0x10, 0xF0, 0x10, 0xF0] ++
  [0x90, 0x90, 0xF0, 0x10, 0x10] ++ [0xF0, 0x80, 0xF0, 0x10, 0xF0] ++
  [0xF0, 0x80, 0xF0, 0x90, 0xF0] ++ [0xF0, 0x10, 0x20, 0x40, 0x40]

/-- Glyphs 8-F of the default font (R46, G1; PRESUMED, log 1). -/
def defaultGlyphsHigh : List Byte :=
  [0xF0, 0x90, 0xF0, 0x90, 0xF0] ++ [0xF0, 0x90, 0xF0, 0x10, 0xF0] ++
  [0xF0, 0x90, 0xF0, 0x90, 0x90] ++ [0xE0, 0x90, 0xE0, 0x90, 0xE0] ++
  [0xF0, 0x80, 0x80, 0x80, 0xF0] ++ [0xE0, 0x90, 0x90, 0x90, 0xE0] ++
  [0xF0, 0x80, 0xF0, 0x80, 0xF0] ++ [0xF0, 0x80, 0xF0, 0x80, 0x80]

/-- The default value of the parameter `FONT`, 80 bytes (R46; PRESUMED, log 1). -/
def defaultFont : List Byte := defaultGlyphsLow ++ defaultGlyphsHigh

/-- What an address that memory does not list reads as: the reset contents with the default font (R44, R45). -/
def unlisted (a : Nat) : Byte :=
  if a < Config.fontBase + Config.fontBytes then defaultFont.getD (a - Config.fontBase) 0 else 0

/-- The byte at an address (R50, after the range check of `guardRange`). -/
def Memory.read : Memory → Nat → Byte
  | [], a => unlisted a
  | (k, b) :: m, a => if a = k then b else Memory.read m a

/-- `mem[a] <- b` (R51, after the range check), in canonical form: writing what an unlisted address reads as removes
the entry (log 6). -/
def Memory.write : Memory → Nat → Byte → Memory
  | [], a, b => if b = unlisted a then [] else [(a, b)]
  | (k, c) :: m, a, b =>
    if a < k then (if b = unlisted a then (k, c) :: m else (a, b) :: (k, c) :: m)
    else if a = k then (if b = unlisted a then m else (a, b) :: m)
    else (k, c) :: Memory.write m a b

/-- Consecutive bytes stored from `base` upward, in order. -/
def Memory.writeBlock (m : Memory) (base : Nat) : List Byte → Memory
  | [] => m
  | b :: bs => Memory.writeBlock (Memory.write m base b) (base + 1) bs

/-- `n` consecutive bytes from `base` upward. -/
def Memory.readBlock (m : Memory) (base : Nat) : Nat → List Byte
  | 0 => []
  | n + 1 => Memory.read m base :: Memory.readBlock m (base + 1) n

/-- Listed addresses rise strictly from `lo`, exist (R47), and list no reset byte. -/
def Memory.wfFrom (lo : Nat) : Memory → Bool
  | [] => true
  | (a, b) :: m => decide (lo ≤ a) && decide (a < Config.memSize) && decide (b ≠ unlisted a) && Memory.wfFrom (a + 1) m

/-- Memory is in canonical form, so that equal memories are equal data (log 6). -/
def Memory.wf (m : Memory) : Bool := Memory.wfFrom 0 m

/-- The byte at an address in a state: the model's read of one byte. -/
def State.readByte (s : State) (a : Nat) : Byte := Memory.read s.mem a

/-- The state with consecutive bytes stored from `base`. -/
def State.writeBytes (s : State) (base : Nat) (bs : List Byte) : State :=
  { s with mem := Memory.writeBlock s.mem base bs }

/-- The reset state for a given `FONT` (R6, R44, R162): `State.reset` with that font's bytes at 0x000-0x04F. -/
def State.resetWith (font : Vector Byte Config.fontBytes) : State :=
  State.reset.writeBytes Config.fontBase font.toList

/-! ### General registers -/

/-- `V[x]` (R10). -/
def State.getV (s : State) (x : Reg) : Byte := s.v[x]

/-- `V[x] <- b` (R10). -/
def State.setV (s : State) (x : Reg) (b : Byte) : State := { s with v := s.v.set x b }

/-! ### Faults: the only exceptions (R138, R148) -/

/-- A, the address the current instruction was fetched from: in the execute phase PC is A + 2 (R85, R88; log 8). -/
def State.fetchAddr (s : State) : Word := s.pc - 2

/-- `raise Fault(kind, info)` in the decode or execute phase: the operation ends with the fault value and pc = A
(R11, R145). It saves, switches and jumps to nothing (R148), and hands no state on: the state stays as it was before
the operation (R146). -/
def raise (f : Word → Fault) (s : State) : Result := .fault (f s.fetchAddr)

/-- The numeric code of a fault (R145). -/
def Fault.code : Fault → Nat
  | .unknownOpcode _ _ => 1
  | .stackOverflow _ _ => 2
  | .stackUnderflow _ => 3
  | .addressOutOfRange _ _ => 4
  | .romTooLarge _ => 5
  | .invalidKeyIndex _ _ => 6

/-- The pc component of a step's fault; a load's fault has none (R145). -/
def Fault.pc? : Fault → Option Word
  | .unknownOpcode _ pc => some pc
  | .stackOverflow _ pc => some pc
  | .stackUnderflow pc => some pc
  | .addressOutOfRange _ pc => some pc
  | .romTooLarge _ => none
  | .invalidKeyIndex _ pc => some pc

/-! ### The address decoder -/

/-- Every address of `count` consecutive bytes from `base` is at most 0xFFF (R48, R52); none of zero bytes fails. -/
def inRange (base count : Nat) : Bool := count == 0 || decide (base + count - 1 < Config.memSize)

/-- The smallest out-of-range address of a failing access: `max(base, 0x1000)` (R52). -/
def firstOutOfRange (base : Nat) : Nat := max base Config.memSize

/-- An instruction that accesses `count` bytes from `base` checks them all before its first read or write (R52). -/
def guardRange (base count : Nat) (s : State) (k : State → Result) : Result :=
  if inRange base count then k s else raise (.addressOutOfRange (firstOutOfRange base)) s

/-! ### The fetch unit -/

/-- The instruction word at PC, big-endian (R56, R85). -/
def State.fetchWord (s : State) : Word :=
  wordOfBytes (s.readByte s.pc.toNat) (s.readByte (s.pc.toNat + 1))

/-- The fetch advance: PC becomes A + 2 (R85). -/
def State.advance (s : State) : State := { s with pc := s.pc + 2 }

/-- The fetch unit: the range check of PC and PC + 1 (R84), then the word and the advance (R85). -/
def fetch (s : State) : Except Fault (Word × State) :=
  if inRange s.pc.toNat Config.insnBytes then .ok (s.fetchWord, s.advance)
  else .error (.addressOutOfRange (firstOutOfRange s.pc.toNat) s.pc)

/-- Decode of the fetched word: an unknown word is the fault of R79, R87, R139. -/
def decodeFetched (w : Word) (s : State) : Except Fault Instr :=
  match decodeWord w with
  | .ok i => .ok i
  | .error _ => .error (.unknownOpcode w s.fetchAddr)

/-- One fetch-decode-execute cycle over a given execute phase: fetch, then decode, then execute; a fault anywhere ends it
and hands no state on (R83, R92, R95, R147). -/
def cycle (execute : Instr → State → Result) (s : State) : Result :=
  match fetch s with
  | .error f => .fault f
  | .ok (w, s') =>
    match decodeFetched w s' with
    | .error f => .fault f
    | .ok i => execute i s'

/-- PC, or the program base where no word can be fetched at PC (log 9). -/
def State.fetchablePc (s : State) : Word :=
  if inRange s.pc.toNat Config.insnBytes then s.pc else BitVec.ofNat 16 Config.progBase

/-- The state with a word stored where the next step fetches (log 9). -/
def State.placeWord (s : State) (w : Word) : State :=
  { s with pc := s.fetchablePc }.writeBytes s.fetchablePc.toNat (bytesOfWord w)

/-! ### Control -/

/-- The skip primitive: `PC <- PC + 2` when the condition holds; the skipped word is not looked at (R91). -/
def skipIf (c : Bool) (s : State) : State := if c then { s with pc := s.pc + 2 } else s

/-- `PC <- t`, with no check of the target (R49, R104). -/
def jumpTo (t : Word) (s : State) : State := { s with pc := t }

/-- `push(v)`: none when the stack is full (R96). -/
def push (r : Word) (s : State) : Option State :=
  if h : s.sp.val < Config.stackCap then
    some { s with stack := s.stack.set s.sp.val r, sp := ⟨s.sp.val + 1, Nat.succ_lt_succ h⟩ }
  else none

/-- `pop()`: none when the stack is empty; the popped slot keeps its value (R97). -/
def pop (s : State) : Option (Word × State) :=
  if h : 0 < s.sp.val then
    some (s.stack[s.sp.val - 1]'(by have := s.sp.isLt; omega),
      { s with sp := ⟨s.sp.val - 1, by have := s.sp.isLt; omega⟩ })
  else none

end Sys2Proof.Machine
end

