-- ==== Sys2Proof/Machine/Operands.lean ====
section
/-!
DEFINITION. The operand forms of 30_encoding.md rules R73-R77 and of the instruction rules: how a field or a
register becomes an address, a target, a key or a shift operand. All arithmetic is on natural numbers and is
narrowed once, at the end (R8).
-/
namespace Sys2Proof.Machine

/-- `zext16(nnn)`: an absolute address (R74). -/
def absolute (nnn : Addr) : Word := nnn.setWidth 16

/-- The target of Bnnn: `V[0] + nnn` as a natural number, at most 0x10FE (R103). -/
def v0Target (nnn : Addr) (s : State) : Word := BitVec.ofNat 16 ((s.getV 0).toNat + nnn.toNat)

/-- `I` as the base address of a memory access, an unbounded natural number (R21, R49). -/
def State.base (s : State) : Nat := s.i.toNat

/-- `trunc16(I + V[x])` (R124). -/
def indexSum (x : Reg) (s : State) : Word := BitVec.ofNat 16 (s.i.toNat + (s.getV x).toNat)

/-- `zext16(V[x] × 5)`: the address of the glyph of digit V[x], not masked (R45, R125). -/
def glyphAddress (x : Reg) (s : State) : Word :=
  BitVec.ofNat 16 (Config.fontBase + (s.getV x).toNat * Config.glyphBytes)

/-- The operand `s` of SHR and SHL: Vx, since `SHIFT_USES_VY` is false (R118, R120; log 2). -/
def shiftOperand (x y : Reg) (s : State) : Byte := if Config.shiftUsesVy then s.getV y else s.getV x

/-- Is key `k` latched (R27)? -/
def State.key (s : State) (k : Fin Config.numKeys) : Bool := s.keys[k]

/-- `k <- V[x]; if k > 15 then raise Fault(InvalidKeyIndex, k)`: the key operand of SKP and SKNP (R132, R133). -/
def withKey (x : Reg) (s : State) (k : Bool → Result) : Result :=
  if h : (s.getV x).toNat < Config.numKeys then k (s.key ⟨(s.getV x).toNat, h⟩)
  else raise (.invalidKeyIndex (s.getV x)) s

/-- `min { k | keys[k] }`, none when no key is latched (R134). -/
def lowestKey (s : State) : Option (Fin Config.numKeys) := (List.finRange Config.numKeys).find? s.key

/-- `V[0], ..., V[x]`, in order (R127). -/
def blockRegs (x : Reg) (s : State) : List Byte := s.v.toList.take (x.val + 1)

/-- V0-VF after `V[k] <- mem[I + k]` for k = 0 to x (R128). -/
def loadedRegs (x : Reg) (s : State) : Vector Byte 16 :=
  Vector.ofFn fun k : Reg => if k ≤ x then s.readByte (s.base + k.val) else s.getV k

/-- The three decimal digits of a byte: `v div 100, (v div 10) mod 10, v mod 10` (R126). -/
def bcdDigits (b : Byte) : List Byte :=
  [BitVec.ofNat 8 (b.toNat / 100), BitVec.ofNat 8 (b.toNat / 10 % 10), BitVec.ofNat 8 (b.toNat % 10)]

/-- The free byte that stands for the step's input r where the step is a function of the state alone (R94; log 3). -/
def State.draw (s : State) : Byte := Config.randomByte s.draws

/-- The counter moves on, so that the next draw is another free byte (log 3). -/
def State.countDraw (s : State) : State := { s with draws := s.draws + 1 }

end Sys2Proof.Machine
end

