-- ==== Sys2Proof/Machine/Flags.lean ====
section
/-!
DEFINITION. The flag computations of 10_state.md rule R31: VF is the only flag, six instructions write it, each
from its operands before the instruction, and VF is written last (40_fetch_step.md rule R89).
-/
namespace Sys2Proof.Machine

/-- `bool01(c)` (R9). -/
def bool01 (c : Bool) : Byte := if c then 1 else 0

/-- The carry of 8xy4: the sum exceeds 255 (R31, R116). -/
def carryFlag (a b : Byte) : Byte := bool01 (decide (255 < a.toNat + b.toNat))

/-- The not-borrow of `a − b`, for 8xy5 and, with the operands exchanged, 8xy7: `a ≥ b` (R31, R117, R119). -/
def notBorrowFlag (a b : Byte) : Byte := bool01 (decide (b.toNat ≤ a.toNat))

/-- The shift-out of 8xy6, `lsb(s)`, bit 0 (R31, R118). -/
def lsbFlag (b : Byte) : Byte := bool01 (b.getLsbD 0)

/-- The shift-out of 8xyE, `msb(s)`, bit 7 (R31, R120). -/
def msbFlag (b : Byte) : Byte := bool01 (b.getLsbD 7)

/-- The collision flag of Dxyn (R31, R130). -/
def collisionFlag (hit : Bool) : Byte := bool01 hit

/-- `VF <- flag`. -/
def State.setFlag (s : State) (flag : Byte) : State := s.setV VF flag

/-- `V[x] <- result`, then `VF <- flag`: with x = F the flag is the final value (R89). -/
def State.setResultFlag (s : State) (x : Reg) (result flag : Byte) : State := (s.setV x result).setFlag flag

end Sys2Proof.Machine
end

