-- ==== Sys2Proof/Machine/Alu.lean ====
section
/-!
DEFINITION. The ALU: loads, arithmetic, logic, shifts and the random byte (43_alu.md rules R110-R121). Results are
computed on natural numbers and truncated to 8 bits once (R8, R122); operands are read before any write (R12, R89).
-/
namespace Sys2Proof.Machine

/-- `trunc8(a + b)` (R111, R116). -/
def sum8 (a b : Byte) : Byte := BitVec.ofNat 8 (a.toNat + b.toNat)

/-- `trunc8(a − b + 256)` (R117, R119). -/
def diff8 (a b : Byte) : Byte := BitVec.ofNat 8 (a.toNat + 256 - b.toNat)

/-- `LD Vx, nn` (R110). -/
def execLdImm (x : Reg) (nn : Byte) (s : State) : Result := .next (s.setV x nn)

/-- `ADD Vx, nn`: no flag, even on overflow (R111). -/
def execAddImm (x : Reg) (nn : Byte) (s : State) : Result := .next (s.setV x (sum8 (s.getV x) nn))

/-- `LD Vx, Vy` (R112). -/
def execLdReg (x y : Reg) (s : State) : Result := .next (s.setV x (s.getV y))

/-- `OR Vx, Vy`: VF is not written unless x = F (R113). -/
def execOrReg (x y : Reg) (s : State) : Result := .next (s.setV x (s.getV x ||| s.getV y))

/-- `AND Vx, Vy` (R114). -/
def execAndReg (x y : Reg) (s : State) : Result := .next (s.setV x (s.getV x &&& s.getV y))

/-- `XOR Vx, Vy` (R115). -/
def execXorReg (x y : Reg) (s : State) : Result := .next (s.setV x (s.getV x ^^^ s.getV y))

/-- `ADD Vx, Vy`, VF the carry (R116). -/
def execAddReg (x y : Reg) (s : State) : Result :=
  .next (s.setResultFlag x (sum8 (s.getV x) (s.getV y)) (carryFlag (s.getV x) (s.getV y)))

/-- `SUB Vx, Vy`, VF the not-borrow of `Vx − Vy` (R117). -/
def execSubReg (x y : Reg) (s : State) : Result :=
  .next (s.setResultFlag x (diff8 (s.getV x) (s.getV y)) (notBorrowFlag (s.getV x) (s.getV y)))

/-- `SHR Vx`: logical shift right by one, VF bit 0 before the shift (R118). -/
def execShr (x y : Reg) (s : State) : Result :=
  .next (s.setResultFlag x (shiftOperand x y s >>> 1) (lsbFlag (shiftOperand x y s)))

/-- `SUBN Vx, Vy`, VF the not-borrow of `Vy − Vx` (R119). -/
def execSubnReg (x y : Reg) (s : State) : Result :=
  .next (s.setResultFlag x (diff8 (s.getV y) (s.getV x)) (notBorrowFlag (s.getV y) (s.getV x)))

/-- `SHL Vx`: shift left by one, bit 7 dropped, VF bit 7 before the shift (R120). -/
def execShl (x y : Reg) (s : State) : Result :=
  .next (s.setResultFlag x (shiftOperand x y s <<< 1) (msbFlag (shiftOperand x y s)))

/-- `RND Vx, nn` for the step's input r: `V[x] <- r AND nn` (R121). -/
def rndWith (r : Byte) (x : Reg) (nn : Byte) (s : State) : State := s.setV x (r &&& nn)

/-- `RND Vx, nn` where the step is a function of the state alone: r is the free byte, which is then used up (R121;
log 3). -/
def execRnd (x : Reg) (nn : Byte) (s : State) : Result := .next (rndWith s.draw x nn s).countDraw

end Sys2Proof.Machine
end

