-- ==== Sys2Proof/Machine/Control.lean ====
section
/-!
DEFINITION. Control transfer and the call stack: NOP, RET, JP, CALL, JP V0 (41_control_stack.md rules R99-R103).
Every meaning runs on the state after the fetch, where PC = A + 2 (R88).
-/
namespace Sys2Proof.Machine

/-- `NOP`: the fetch advance is the only change (R99). -/
def execNop (s : State) : Result := .next s

/-- `RET`: `PC <- pop()` (R100), StackUnderflow when SP = 0 (R141). -/
def execRet (s : State) : Result :=
  match pop s with
  | some (t, s') => .next (jumpTo t s')
  | none => raise .stackUnderflow s

/-- `JP nnn`: `PC <- zext16(nnn)` (R101). -/
def execJp (nnn : Addr) (s : State) : Result := .next (jumpTo (absolute nnn) s)

/-- `CALL nnn`: `push(PC); PC <- zext16(nnn)`, the PC pushed being A + 2 (R102), StackOverflow when SP = 16 (R140). -/
def execCall (nnn : Addr) (s : State) : Result :=
  match push s.pc s with
  | some s' => .next (jumpTo (absolute nnn) s')
  | none => raise (.stackOverflow s.pc) s

/-- `JP V0, nnn`: `PC <- V[0] + nnn` (R103). -/
def execJpV0 (nnn : Addr) (s : State) : Result := .next (jumpTo (v0Target nnn s) s)

end Sys2Proof.Machine
end

