-- ==== Sys2Proof/Machine/IndexMemory.lean ====
section
/-!
DEFINITION. The index register and the memory transfers through it (44_index_memory.md rules R123-R128). I changes
only by its own assignment (R21), and each transfer checks its whole range before it touches anything (R52).
-/
namespace Sys2Proof.Machine

/-- `LD I, nnn` (R123). -/
def execLdI (nnn : Addr) (s : State) : Result := .next { s with i := absolute nnn }

/-- `ADD I, Vx`: wraps at 16 bits, no flag, no range check (R124). -/
def execAddI (x : Reg) (s : State) : Result := .next { s with i := indexSum x s }

/-- `LD F, Vx` (R125). -/
def execLdF (x : Reg) (s : State) : Result := .next { s with i := glyphAddress x s }

/-- `LD B, Vx`: the decimal digits at I, I + 1, I + 2 (R126). -/
def execLdB (x : Reg) (s : State) : Result :=
  guardRange s.base 3 s fun s => .next (s.writeBytes s.base (bcdDigits (s.getV x)))

/-- `LD [I], Vx`: V0..Vx stored from I (R127). -/
def execLdMemVx (x : Reg) (s : State) : Result :=
  guardRange s.base (x.val + 1) s fun s => .next (s.writeBytes s.base (blockRegs x s))

/-- `LD Vx, [I]`: V0..Vx loaded from I (R128). -/
def execLdVxMem (x : Reg) (s : State) : Result :=
  guardRange s.base (x.val + 1) s fun s => .next { s with v := loadedRegs x s }

end Sys2Proof.Machine
end

