-- ==== Sys2Proof/Machine/KeypadTimer.lean ====
section
/-!
DEFINITION. The keypad and timer instructions (46_keypad_timer.md rules R132-R137). They read the latch and never
write it (R27).
-/
namespace Sys2Proof.Machine

/-- `SKP Vx`: skip when the key is latched (R132). -/
def execSkp (x : Reg) (s : State) : Result := withKey x s fun pressed => .next (skipIf pressed s)

/-- `SKNP Vx`: skip when the key is not latched (R133). -/
def execSknp (x : Reg) (s : State) : Result := withKey x s fun pressed => .next (skipIf (!pressed) s)

/-- `LD Vx, K`: the lowest latched key, or `PC <- PC − 2` to execute again (R134). -/
def execLdVxK (x : Reg) (s : State) : Result :=
  match lowestKey s with
  | some k => .next (s.setV x (BitVec.ofNat 8 k.val))
  | none => .next (jumpTo s.fetchAddr s)

/-- `LD Vx, DT` (R135). -/
def execLdVxDt (x : Reg) (s : State) : Result := .next (s.setV x s.dt)

/-- `LD DT, Vx` (R136). -/
def execLdDtVx (x : Reg) (s : State) : Result := .next { s with dt := s.getV x }

/-- `LD ST, Vx` (R137). -/
def execLdStVx (x : Reg) (s : State) : Result := .next { s with st := s.getV x }

end Sys2Proof.Machine
end

