-- ==== Sys2Proof/Machine/Skips.lean ====
section
/-!
DEFINITION. The four skips on register values (42_skips.md rules R106-R109).
-/
namespace Sys2Proof.Machine

/-- `SE Vx, nn`: skip when `V[x] = nn` (R106). -/
def execSeImm (x : Reg) (nn : Byte) (s : State) : Result := .next (skipIf (s.getV x == nn) s)

/-- `SNE Vx, nn`: skip when `V[x] ≠ nn` (R107). -/
def execSneImm (x : Reg) (nn : Byte) (s : State) : Result := .next (skipIf (s.getV x != nn) s)

/-- `SE Vx, Vy`: skip when `V[x] = V[y]` (R108). -/
def execSeReg (x y : Reg) (s : State) : Result := .next (skipIf (s.getV x == s.getV y) s)

/-- `SNE Vx, Vy`: skip when `V[x] ≠ V[y]` (R109). -/
def execSneReg (x y : Reg) (s : State) : Result := .next (skipIf (s.getV x != s.getV y) s)

end Sys2Proof.Machine
end

