-- ==== Sys2Proof/Machine/Sprite.lean ====
section
/-!
DEFINITION. The framebuffer clear and the sprite XOR-blit engine (45_sprite.md rules R129, R130), with the loops of
R130 in their written order: rows from the top, columns from bit 7.
-/
namespace Sys2Proof.Machine

/-- Every cell unlit (R129). -/
def clearFb : Framebuffer := Vector.replicate Config.fbHeight (Vector.replicate Config.fbWidth false)

/-- Cell `fb[x, y]` (R28). -/
def cell (fb : Framebuffer) (x : Fin Config.fbWidth) (y : Fin Config.fbHeight) : Bool := fb[y][x]

/-- `fb[x, y] <- not fb[x, y]` (R130). -/
def toggleCell (fb : Framebuffer) (x : Fin Config.fbWidth) (y : Fin Config.fbHeight) : Framebuffer :=
  fb.set y (fb[y].set x (!fb[y][x]))

/-- The column `(px + col) mod 64` of a sprite's column (R130). -/
def wrapX (px col : Nat) : Fin Config.fbWidth := ⟨(px + col) % Config.fbWidth, Nat.mod_lt _ (by decide)⟩

/-- The row `(py + row) mod 32` of a sprite's row (R130). -/
def wrapY (py row : Nat) : Fin Config.fbHeight := ⟨(py + row) % Config.fbHeight, Nat.mod_lt _ (by decide)⟩

/-- What a draw has done so far: the framebuffer, and whether a lit cell was toggled (`hit`, R130). -/
structure Blit where
  fb  : Framebuffer
  hit : Bool
deriving DecidableEq, Repr

/-- Toggle one cell: a lit cell is a collision (R130). -/
def blitCell (c : Blit) (x : Fin Config.fbWidth) (y : Fin Config.fbHeight) : Blit :=
  { fb := toggleCell c.fb x y, hit := c.hit || cell c.fb x y }

/-- One sprite row of width 8 at screen row `y`, the columns `col, ..., 7` still to do being given as a count
`left = 8 − col`: bit `7 − col` of the byte decides the column (R130). -/
def blitRow (px : Nat) (y : Fin Config.fbHeight) (byte : Byte) (c : Blit) : Nat → Blit
  | 0 => c
  | left + 1 =>
    blitRow px y byte (if byte.getLsbD left then blitCell c (wrapX px (7 - left)) y else c) left

/-- The sprite's rows from row number `row` on (R130). -/
def blitRows (px py : Nat) (c : Blit) (row : Nat) : List Byte → Blit
  | [] => c
  | byte :: rest => blitRows px py (blitRow px (wrapY py row) byte c 8) (row + 1) rest

/-- The whole draw of sprite bytes at position (px, py) on a framebuffer (R130). -/
def blit (px py : Nat) (bytes : List Byte) (fb : Framebuffer) : Blit := blitRows px py ⟨fb, false⟩ 0 bytes

/-- The state after a draw: the framebuffer, and VF the collision flag, written last (R130, R89). -/
def State.withBlit (s : State) (c : Blit) : State := { s with fb := c.fb }.setFlag (collisionFlag c.hit)

/-- `CLS` (R129). -/
def execCls (s : State) : Result := .next { s with fb := clearFb }

/-- `DRW Vx, Vy, n` (R130): n = 0 reads nothing, draws nothing and clears VF (R75). -/
def execDrw (x y : Reg) (n : Fin 16) (s : State) : Result :=
  guardRange s.base n.val s fun s =>
    .next (s.withBlit (blit (s.getV x).toNat (s.getV y).toNat (Memory.readBlock s.mem s.base n.val) s.fb))

end Sys2Proof.Machine
end

