-- ==== Sys2Proof/Machine/Step.lean ====
section
/-!
DEFINITION. The step as a function of the state alone: one fetch-decode-execute cycle (40_fetch_step.md rules R83,
R95), with its three outcomes, and the placing of a word where the next step fetches.
-/
namespace Sys2Proof.Machine

/-- `step` as a function of the state alone, the form that `Sys2Proof.core` asks for: the cycle of R95, a Cxnn in it
drawing `State.draw`. The operation with its input r is `stepWith` (Machine/HostOps.lean; log 3). -/
def step (s : State) : Host.Outcome State Fault Refusal := cycle exec s

/-- The state with a table word stored where the next step fetches it (log 9). -/
def State.withFetchWord (s : State) (nbits w : Nat) : State := s.placeWord (tableWord nbits w)

end Sys2Proof.Machine
end

