-- ==== Sys2Proof/Machine/HostOps.lean ====
section
/-!
DEFINITION. The block's whole interface: the six host operations of 60_exceptions.md rule R153, each indivisible,
and runs of a host schedule (R158, R172). `FONT` and `HOST_SCHEDULE` are arguments, as 00_scope.md rule R6 asks.
-/
namespace Sys2Proof.Machine

/-- A host operation with its inputs (R153). -/
inductive HostOp where
  /-- one fetch-decode-execute cycle on the random byte r, any byte (R94, R95) -/
  | step (r : Byte)
  /-- one timer tick (R154) -/
  | tick
  /-- set or clear keypad latch `k` (R156) -/
  | keySet (k : Nat) (pressed : Bool)
  /-- reset (R162) -/
  | reset
  /-- load a program image (R65) -/
  | load (image : List Byte)
  /-- read the framebuffer (R157) -/
  | fbRead
deriving DecidableEq, Repr

/-- What an operation returns to the host beside a fault (R153). -/
inductive Reply where
  /-- `Ok`, or nothing -/
  | ok
  /-- the tick's output `tone_stop` (R155) -/
  | toneStop (stop : Bool)
  /-- the grid of lit and unlit cells (R157) -/
  | grid (fb : Framebuffer)
deriving DecidableEq, Repr

/-- An operation the host may issue: a key index is 0-15 (R156, R158). -/
def HostOp.wellFormed : HostOp → Bool
  | .keySet k _ => decide (k < Config.numKeys)
  | .step _ => true
  | .tick => true
  | .reset => true
  | .load _ => true
  | .fbRead => true

/-- The execute phase with the step's input r, which Cxnn alone reads (R94, R121). Only `exec` of Cxnn touches the
model's own draw counter, so here nothing does: the state holds no generator (R34). -/
def execWith (r : Byte) (i : Instr) (s : State) : Result :=
  match i with
  | .rnd x nn => .next (rndWith r x nn s)
  | other => exec other s

/-- The operation `step` with s the state before it and r the draw, as R95 has it. -/
def stepWith (r : Byte) (s : State) : Result := cycle (execWith r) s

/-- A timer after a tick: one less, floored at 0 (R154). -/
def countDown (b : Byte) : Byte := BitVec.ofNat 8 (b.toNat - 1)

/-- `tick`: both timers count down (R154). -/
def tick (s : State) : State := { s with dt := countDown s.dt, st := countDown s.st }

/-- `tone_stop`: ST was 1 before the tick (R155). -/
def toneStop (s : State) : Bool := s.st == 1

/-- `key_set(k, p)` for k in 0-15 (R156). -/
def keySet (k : Fin Config.numKeys) (pressed : Bool) (s : State) : State :=
  { s with keys := s.keys.set k pressed }

/-- The load of an image that fits: its bytes from 0x200 and PC = 0x200 (R65), nothing else (R66). -/
def loadImage (image : List Byte) (s : State) : State :=
  { s with pc := BitVec.ofNat 16 Config.progBase }.writeBytes Config.progBase image

/-- One host operation (R153): its effect and its reply, or its fault. -/
def HostOp.apply (font : Vector Byte Config.fontBytes) (op : HostOp) (s : State) :
    Host.Outcome (State × Reply) Fault Refusal :=
  match op with
  | .step r =>
    match stepWith r s with
    | .next t => .next (t, .ok)
    | .fault f => .fault f
    | .refused r => .refused r
  | .tick => .next (Machine.tick s, .toneStop (Machine.toneStop s))
  | .keySet k p =>
    if h : k < Config.numKeys then .next (Machine.keySet ⟨k, h⟩ p s, .ok) else .refused (.noSuchKey k)
  | .reset => .next ({ State.resetWith font with draws := s.draws }, .ok)
  | .load image =>
    if image.length ≤ Config.maxRom then .next (loadImage image s, .ok) else .fault (.romTooLarge image.length)
  | .fbRead => .next (s, .grid s.fb)

/-- The state the host finds after an operation: the state before it when it faults, since a fault leaves no trace
(R146, R149). -/
def HostOp.stateAfter (font : Vector Byte Config.fontBytes) (op : HostOp) (s : State) : State :=
  match op.apply font s with
  | .next (t, _) => t
  | .fault _ => s
  | .refused _ => s

/-- A run of a schedule: the operations in order, ended by the first fault (R158, R172). -/
def runSchedule (font : Vector Byte Config.fontBytes) : List HostOp → State → Result
  | [], s => .next s
  | op :: ops, s =>
    match op.apply font s with
    | .next (t, _) => runSchedule font ops t
    | .fault f => .fault f
    | .refused r => .refused r

end Sys2Proof.Machine
end

