-- ==== Sys2Proof/Safety.lean ====
section
/-!
DEFINITION. The terms that claims are written in: what an instruction leaves unchanged (the frame of
40_fetch_step.md rule R90), when an instruction completes, the invariant of the machine, the words of R70 as
numbers, the cells a sprite covers, and what counts as a safe run (R172).
-/
namespace Sys2Proof.Machine

/-- The parts of the state (R13), and the model's own draw counter. -/
inductive Part where
  | regs
  | pc
  | index
  | stack
  | delay
  | sound
  | keypad
  | screen
  | memory
  | draws
deriving DecidableEq, Repr

/-- A part is the same before and after: memory byte by byte, through the model's read of one byte. -/
def keeps : Part → State → State → Prop
  | .regs, s, t => ∀ r : Reg, t.getV r = s.getV r
  | .pc, s, t => t.pc = s.pc
  | .index, s, t => t.i = s.i
  | .stack, s, t => t.sp = s.sp ∧ t.stack = s.stack
  | .delay, s, t => t.dt = s.dt
  | .sound, s, t => t.st = s.st
  | .keypad, s, t => t.keys = s.keys
  | .screen, s, t => t.fb = s.fb
  | .memory, s, t => ∀ a : Nat, t.readByte a = s.readByte a
  | .draws, s, t => t.draws = s.draws

/-- Every part outside `changed` is the same before and after (R90). -/
def Frame (changed : List Part) (s t : State) : Prop := ∀ p : Part, p ∉ changed → keeps p s t

/-- Every register outside `dst` is the same before and after. -/
def OtherRegsKept (dst : List Reg) (s t : State) : Prop := ∀ r : Reg, r ∉ dst → t.getV r = s.getV r

/-- Every byte outside the `count` bytes from `base` is the same before and after. -/
def OtherBytesKept (base count : Nat) (s t : State) : Prop :=
  ∀ a : Nat, a < base ∨ base + count ≤ a → t.readByte a = s.readByte a

/-- The condition under which an instruction has its effect and does not fault (R138-R144, R147). -/
def completes : Instr → State → Prop
  | .ret, s => 0 < s.sp.val
  | .call _, s => s.sp.val < 16
  | .drw _ _ n, s => n.val = 0 ∨ s.i.toNat + n.val - 1 ≤ 0xFFF
  | .skp x, s => (s.getV x).toNat ≤ 15
  | .sknp x, s => (s.getV x).toNat ≤ 15
  | .ldB _, s => s.i.toNat + 2 ≤ 0xFFF
  | .ldMemVx x, s => s.i.toNat + x.val ≤ 0xFFF
  | .ldVxMem x, s => s.i.toNat + x.val ≤ 0xFFF
  | .nop, _ => True
  | .cls, _ => True
  | .jp _, _ => True
  | .seImm _ _, _ => True
  | .sneImm _ _, _ => True
  | .seReg _ _, _ => True
  | .ldImm _ _, _ => True
  | .addImm _ _, _ => True
  | .ldReg _ _, _ => True
  | .orReg _ _, _ => True
  | .andReg _ _, _ => True
  | .xorReg _ _, _ => True
  | .addReg _ _, _ => True
  | .subReg _ _, _ => True
  | .shr _ _, _ => True
  | .subnReg _ _, _ => True
  | .shl _ _, _ => True
  | .sneReg _ _, _ => True
  | .ldI _, _ => True
  | .jpV0 _, _ => True
  | .rnd _ _, _ => True
  | .ldVxDt _, _ => True
  | .ldVxK _, _ => True
  | .ldDtVx _, _ => True
  | .ldStVx _, _ => True
  | .addI _, _ => True
  | .ldF _, _ => True

/-- The machine's invariant: memory is in canonical form (log 6), PC is at most 0x10FE (R19), and every live stack
slot holds an address after a call, at most 0x1000 (R24, R102). SP ≤ 16 (R24) holds by SP's type. -/
abbrev Inv (s : State) : Prop :=
  Memory.wf s.mem = true ∧ s.pc.toNat ≤ 0x10FE ∧
  ∀ k : Fin 16, k.val < s.sp.val → 2 ≤ (s.stack[k]).toNat ∧ (s.stack[k]).toNat ≤ 0x1000

/-- Pushes in order, none at the first that does not fit (R96). -/
def pushAll : List Word → State → Option State
  | [], s => some s
  | r :: rs, s => (push r s).bind (pushAll rs)

/-- `n` pops: the values in the order popped, none at the first on an empty stack (R97). -/
def popAll : Nat → State → Option (List Word × State)
  | 0, s => some ([], s)
  | n + 1, s => (pop s).bind fun p => (popAll n p.2).map fun q => (p.1 :: q.1, q.2)

/-- Cell (cx, cy) lies under a set bit of the n-row sprite at I drawn at position (px, py) (R130). -/
def Covered (s : State) (px py n : Nat) (cx : Fin 64) (cy : Fin 32) : Prop :=
  ∃ row col : Nat, row < n ∧ col < 8 ∧ (s.readByte (s.i.toNat + row)).getLsbD (7 - col) = true ∧
    cx.val = (px + col) % 64 ∧ cy.val = (py + row) % 32

/-- A run is safe when no operation of it faults (R172). -/
def SafeRun (font : Vector Byte Config.fontBytes) (ops : List HostOp) (s : State) : Prop :=
  ∃ t, runSchedule font ops s = .next t

end Sys2Proof.Machine

namespace Sys2Proof

/-- A word of format NNN with the given match value, as a number (R69, R70). -/
def wordNNN (pattern : Nat) (nnn : Addr) : Word := BitVec.ofNat 16 (pattern + nnn.toNat)

/-- A word of format XNN (R69, R70). -/
def wordXNN (pattern : Nat) (x : Reg) (nn : Byte) : Word := BitVec.ofNat 16 (pattern + 256 * x.val + nn.toNat)

/-- A word of format XYF or XYN with its last nibble in the match value or as `n` (R69, R70). -/
def wordXY (pattern : Nat) (x y : Reg) (n : Nat) : Word := BitVec.ofNat 16 (pattern + 256 * x.val + 16 * y.val + n)

/-- A word of format XF (R69, R70). -/
def wordX (pattern : Nat) (x : Reg) : Word := BitVec.ofNat 16 (pattern + 256 * x.val)

end Sys2Proof
end

