-- ==== Sys2Proof/Certificates/Slice0/Obligations.lean ====
section
/-!
DEFINITION. The statements for the provers. In a statement about exec the state `s` is the one after the fetch, so
its PC is A + 2 and `s.fetchAddr` is A (40_fetch_step.md rules R85, R88).
-/
open Sys2Proof Sys2Proof.Machine

/-! ### Encoding -/

/-- R69-R71: decoding the word of an instruction gives the instruction back, every operand at every value; the y of
SHR and SHL is an operand by the model's choice (log 2). -/
def Obligations.DecodeEncode : Prop := ∀ i : Instr, decodeWord (encode i) = .ok i

/-- R70, R71: a word that decodes is the word of what it decodes to, so no bit is lost. Of SHR and SHL that is the
model's own choice (log 2): R76 says that their y is not read, and the model keeps it in the syntax. -/
def Obligations.EncodeDecode : Prop := ∀ (w : Word) (i : Instr), decodeWord w = .ok i → encode i = w

/-- R70: the decoder recognises exactly the 35 rows of the mask-and-match table, gives the row's own instruction, and
the rows are disjoint. -/
def Obligations.DecodesExactlyTheTable : Prop :=
  opcodeTable.length = 35 ∧ ∀ w : Word,
    (wordWellFormed w = true ↔ ∃ i, decodeWord w = .ok i) ∧
    (∀ i, decodeWord w = .ok i → ∃ r ∈ opcodeTable, r.num = i.rowNum ∧ r.hits w = true) ∧
    (∀ r ∈ opcodeTable, ∀ q ∈ opcodeTable, r.hits w = true → q.hits w = true → r = q)

/-- R72: 43955 of the 65536 words decode to an instruction, the other 21581 are unknown. -/
def Obligations.DecodeIsTotalWithCounts : Prop :=
  (∀ w : Word, (∃ i, decodeWord w = .ok i) ∨ decodeWord w = .error (.unknownOpcode w)) ∧
  (List.range 65536).countP (fun n => (decodeRow (BitVec.ofNat 16 n)).isSome) = 43955

/-- R79: the unknown words, listed by family; a step that fetches one faults and records the address A. -/
def Obligations.UnknownWordsListed : Prop :=
  (∀ s : State, s.pc.toNat ≤ 0xFFE → decodeWord s.fetchWord = .error (.unknownOpcode s.fetchWord) →
    step s = .fault (.unknownOpcode s.fetchWord s.pc)) ∧
  ∀ w : Word, decodeWord w = .error (.unknownOpcode w) ↔
    (w.toNat / 4096 = 0x0 ∧ w.toNat ≠ 0x0000 ∧ w.toNat ≠ 0x00E0 ∧ w.toNat ≠ 0x00EE) ∨
    (w.toNat / 4096 = 0x5 ∧ w.toNat % 16 ≠ 0) ∨
    (w.toNat / 4096 = 0x9 ∧ w.toNat % 16 ≠ 0) ∨
    (w.toNat / 4096 = 0x8 ∧ w.toNat % 16 ∈ [0x8, 0x9, 0xA, 0xB, 0xC, 0xD, 0xF]) ∨
    (w.toNat / 4096 = 0xE ∧ w.toNat % 256 ∉ [0x9E, 0xA1]) ∨
    (w.toNat / 4096 = 0xF ∧ w.toNat % 256 ∉ [0x07, 0x0A, 0x15, 0x18, 0x1E, 0x29, 0x33, 0x55, 0x65])

/-- R70: one word of each family, written out from the encoding column, decodes to its instruction. -/
def Obligations.SampleWordsDecode : Prop :=
  decodeWord 0b0000000011101110 = .ok .ret ∧
  decodeWord 0b0010001000010000 = .ok (.call 0x210) ∧
  decodeWord 0b0101000100100000 = .ok (.seReg 1 2) ∧
  decodeWord 0b1000000100100110 = .ok (.shr 1 2) ∧
  decodeWord 0b1100000000001111 = .ok (.rnd 0 0x0F) ∧
  decodeWord 0b1101101010110011 = .ok (.drw 0xA 0xB 3) ∧
  decodeWord 0b1110010110011110 = .ok (.skp 5) ∧
  decodeWord 0b1111000101010101 = .ok (.ldMemVx 1)

/-! ### The step -/

/-- R85, R88, R94: when the two bytes at PC decode to i, a step is exec of i on the state with PC two further; the
operation with the input r is `execWith r` of i there, which is exec of i unless i is Cxnn. -/
def Obligations.StepRunsDecoded : Prop :=
  ∀ (s : State) (i : Instr), s.pc.toNat ≤ 0xFFE →
    decodeBytes [s.readByte s.pc.toNat, s.readByte (s.pc.toNat + 1)] = .ok (i, []) →
    step s = exec i { s with pc := s.pc + 2 } ∧
    ∀ r : Byte, stepWith r s = execWith r i { s with pc := s.pc + 2 } ∧
      ((∀ x nn, i ≠ .rnd x nn) → execWith r i { s with pc := s.pc + 2 } = exec i { s with pc := s.pc + 2 })

/-- R85, R20: at any A up to 0xFFE, odd or even, the fetch gives `mem[A] × 256 + mem[A + 1]` and sets PC to A + 2
without wrapping, and nothing else changes. -/
def Obligations.FetchReadsBigEndian : Prop :=
  ∀ s : State, s.pc.toNat ≤ 0xFFE →
    ∃ (w : Word) (t : State), fetch s = .ok (w, t) ∧
      w.toNat = (s.readByte s.pc.toNat).toNat * 256 + (s.readByte (s.pc.toNat + 1)).toNat ∧
      t.pc.toNat = s.pc.toNat + 2 ∧ Frame [.pc] s t

/-- R84: a fetch succeeds exactly when A ≤ 0xFFE; otherwise the step faults with the smallest bad address, before any
decoding, and leaves the state unchanged. -/
def Obligations.FetchOutOfRangeFaults : Prop :=
  ∀ (font : Vector Byte Config.fontBytes) (r : Byte) (s : State),
    ((∃ p, fetch s = .ok p) ↔ s.pc.toNat ≤ 0xFFE) ∧
    (0xFFF < s.pc.toNat + 1 →
      step s = .fault (.addressOutOfRange (max s.pc.toNat 0x1000) s.pc) ∧ (HostOp.step r).stateAfter font s = s)

/-- R87: a fetched word that is unknown makes the step fault with UnknownOpcode, and PC keeps A. -/
def Obligations.UnknownOpcodeFaults : Prop :=
  ∀ (font : Vector Byte Config.fontBytes) (r : Byte) (s : State), s.pc.toNat ≤ 0xFFE → wordWellFormed s.fetchWord = false →
    step s = .fault (.unknownOpcode s.fetchWord s.pc) ∧ (HostOp.step r).stateAfter font s = s

/-- R145, R143: every fault of a step carries the address the step fetched from and is not RomTooLarge; a load faults
only with RomTooLarge, when its image is longer than 3584 bytes; no other operation faults; and the six codes. -/
def Obligations.FaultValuesOfOperations : Prop :=
  (∀ (font : Vector Byte Config.fontBytes) (op : HostOp) (s : State) (f : Fault), op.apply font s = .fault f →
    ((∃ r, op = .step r) ∧ f.pc? = some s.pc ∧ f.code ∈ [1, 2, 3, 4, 6]) ∨
    (∃ image, op = .load image ∧ 3584 < image.length ∧ f = .romTooLarge image.length)) ∧
  (∀ (w pc k : Word) (b : Byte) (a len : Nat),
    (Fault.unknownOpcode w pc).code = 1 ∧ (Fault.stackOverflow k pc).code = 2 ∧ (Fault.stackUnderflow pc).code = 3 ∧
    (Fault.addressOutOfRange a pc).code = 4 ∧ (Fault.romTooLarge len).code = 5 ∧
    (Fault.invalidKeyIndex b pc).code = 6)

/-- R146: after an operation that faults the host finds the state unchanged. -/
def Obligations.FaultLeavesNoTrace : Prop :=
  ∀ (font : Vector Byte Config.fontBytes) (op : HostOp) (s : State) (f : Fault),
    op.apply font s = .fault f → op.stateAfter font s = s

/-- R147: the one kind of fault each instruction's execute phase can raise, and UnknownOpcode only of a PC that can
be fetched from. -/
def Obligations.FaultKindsByInstruction : Prop :=
  (∀ (i : Instr) (s : State) (f : Fault), exec i s = .fault f →
    ((∃ nnn, i = .call nnn) ∧ f.code = 2) ∨
    (i = .ret ∧ f.code = 3) ∨
    (((∃ x y n, i = .drw x y n) ∨ (∃ x, i = .ldB x ∨ i = .ldMemVx x ∨ i = .ldVxMem x)) ∧ f.code = 4) ∨
    ((∃ x, i = .skp x ∨ i = .sknp x) ∧ f.code = 6)) ∧
  (∀ (s : State) (w pc : Word), step s = .fault (.unknownOpcode w pc) → s.pc.toNat ≤ 0xFFE)

/-- R138-R144, R152: an instruction answers a next state exactly under its condition, and none is ever refused. -/
def Obligations.ExecCompletesExactly : Prop :=
  ∀ (i : Instr) (s : State),
    ((∃ t, exec i s = .next t) ↔ completes i s) ∧ (∀ r, exec i s ≠ .refused r) ∧ (∀ r, step s ≠ .refused r)

/-! ### Invariants -/

/-- R19, R24: from every state that meets the invariant a step gives a state that meets it. Its memory clause is the
model's own canonical form (log 6). -/
def Obligations.StepKeepsInvariant : Prop := ∀ s t : State, Inv s → step s = .next t → Inv t

/-- The invariant holds after reset, whatever the font. -/
def Obligations.ResetMeetsInvariant : Prop :=
  Inv State.reset ∧ ∀ font : Vector Byte Config.fontBytes, Inv (State.resetWith font)

/-- R158: every run of every host schedule, from every state that meets the invariant, keeps it. -/
def Obligations.ScheduleKeepsInvariant : Prop :=
  ∀ (font : Vector Byte Config.fontBytes) (ops : List HostOp) (s t : State),
    Inv s → runSchedule font ops s = .next t → Inv t

/-- Canonical memories that read alike at every address of the machine are equal (the model's own form, log 6). -/
def Obligations.CanonicalMemoryIsUnique : Prop :=
  ∀ m n : Memory, Memory.wf m = true → Memory.wf n = true →
    (∀ a : Nat, a < 4096 → Memory.read m a = Memory.read n a) → m = n

/-! ### What instructions can change, whole machine -/

/-- R93: a step changes DT only by Fx15, ST only by Fx18, and never the keypad latch; among the other host operations
only the tick and (R162) reset change a timer, and only key_set and reset change the latch. -/
def Obligations.StepKeepsTimersAndKeys : Prop :=
  (∀ s t : State, step s = .next t →
    t.keys = s.keys ∧
    (t.dt ≠ s.dt → ∃ x, decodeWord s.fetchWord = .ok (.ldDtVx x)) ∧
    (t.st ≠ s.st → ∃ x, decodeWord s.fetchWord = .ok (.ldStVx x))) ∧
  (∀ (font : Vector Byte Config.fontBytes) (op : HostOp) (s t : State) (y : Reply), op.apply font s = .next (t, y) →
    (t.dt ≠ s.dt ∨ t.st ≠ s.st → (∃ r, op = .step r) ∨ op = .tick ∨ op = .reset) ∧
    (t.keys ≠ s.keys → (∃ k p, op = .keySet k p) ∨ op = .reset))

/-- R24: SP is at most 16 in every state, and only CALL and RET change the stack or SP. -/
def Obligations.OnlyCallAndRetTouchStack : Prop :=
  ∀ (i : Instr) (s t : State), s.sp.val ≤ 16 ∧
    (exec i s = .next t → (t.sp ≠ s.sp ∨ t.stack ≠ s.stack) → (∃ nnn, i = .call nnn) ∨ i = .ret)

/-- R57: memory is written only by Fx33 and Fx55, and only at their addresses. -/
def Obligations.OnlyStoresTouchMemory : Prop :=
  ∀ (i : Instr) (s t : State) (a : Nat), exec i s = .next t → t.readByte a ≠ s.readByte a →
    (∃ x, i = .ldB x ∧ s.i.toNat ≤ a ∧ a ≤ s.i.toNat + 2) ∨
    (∃ x, i = .ldMemVx x ∧ s.i.toNat ≤ a ∧ a ≤ s.i.toNat + x.val)

/-- R21, R28: I is written only by Annn, Fx1E and Fx29, the framebuffer only by 00E0 and Dxyn. -/
def Obligations.OnlyOwnersTouchIndexAndScreen : Prop :=
  ∀ (i : Instr) (s t : State), exec i s = .next t →
    (t.i ≠ s.i → (∃ nnn, i = .ldI nnn) ∨ (∃ x, i = .addI x ∨ i = .ldF x)) ∧
    (t.fb ≠ s.fb → i = .cls ∨ ∃ x y n, i = .drw x y n)

/-- R31, R32: VF changes only by the six flag writers or as the explicit destination. -/
def Obligations.OnlyFlagWritersTouchVF : Prop :=
  ∀ (i : Instr) (s t : State), exec i s = .next t → t.getV 0xF ≠ s.getV 0xF →
    (∃ x y, i = .addReg x y ∨ i = .subReg x y ∨ i = .shr x y ∨ i = .subnReg x y ∨ i = .shl x y) ∨
    (∃ x y n, i = .drw x y n) ∨
    (∃ nn, i = .ldImm 0xF nn ∨ i = .addImm 0xF nn ∨ i = .rnd 0xF nn) ∨
    (∃ y, i = .ldReg 0xF y ∨ i = .orReg 0xF y ∨ i = .andReg 0xF y ∨ i = .xorReg 0xF y) ∨
    i = .ldVxDt 0xF ∨ i = .ldVxK 0xF ∨ i = .ldVxMem 0xF

/-- R89: the flag of the five flag-writing ALU instructions depends on the two operands alone, not on VF's or any
other register's prior value, for every x and y, x = F included. -/
def Obligations.FlagDependsOnOperandsOnly : Prop :=
  ∀ (x y : Reg) (s s' t t' : State) (i : Instr),
    i ∈ [.addReg x y, .subReg x y, .shr x y, .subnReg x y, .shl x y] →
    s.getV x = s'.getV x → s.getV y = s'.getV y →
    exec i s = .next t → exec i s' = .next t' → t.getV 0xF = t'.getV 0xF

/-- R19, R104: how PC can differ from A + 2 after an instruction. -/
def Obligations.PcChangesOnlyByControl : Prop :=
  ∀ (i : Instr) (s t : State), exec i s = .next t → t.pc ≠ s.pc →
    (t.pc = s.pc + 2 ∧
      ((∃ x nn, i = .seImm x nn ∨ i = .sneImm x nn) ∨ (∃ x y, i = .seReg x y ∨ i = .sneReg x y) ∨
        (∃ x, i = .skp x ∨ i = .sknp x))) ∨
    (t.pc = s.pc - 2 ∧ ∃ x, i = .ldVxK x) ∨
    ((∃ nnn, i = .jp nnn ∨ i = .call nnn ∨ i = .jpV0 nnn) ∨ i = .ret)

/-! ### Control transfer and the stack -/

/-- R99: NOP changes nothing beyond the fetch advance. -/
def Obligations.NopDoesNothing : Prop := decodeWord 0x0000 = .ok .nop ∧ ∀ s : State, exec .nop s = .next s

/-- R100: RET takes PC from the newest slot, which keeps its value, and faults on an empty stack. -/
def Obligations.RetPops : Prop :=
  decodeWord 0x00EE = .ok .ret ∧
  ∀ s : State,
    (∀ k : Fin 16, s.sp.val = k.val + 1 →
      ∃ t, exec .ret s = .next t ∧ t.pc = s.stack[k] ∧ t.sp.val = k.val ∧ t.stack = s.stack ∧
        Frame [.pc, .stack] s t) ∧
    (s.sp.val = 0 → exec .ret s = .fault (.stackUnderflow s.fetchAddr))

/-- R102: CALL stores PC (A + 2) in the next free slot and jumps, and faults on a full stack. -/
def Obligations.CallPushes : Prop :=
  ∀ (nnn : Addr) (s : State), decodeWord (wordNNN 0x2000 nnn) = .ok (.call nnn) ∧
    (∀ k : Fin 16, s.sp.val = k.val →
      ∃ t, exec (.call nnn) s = .next t ∧ t.pc.toNat = nnn.toNat ∧ t.sp.val = k.val + 1 ∧ t.stack[k] = s.pc ∧
        (∀ j : Fin 16, j ≠ k → t.stack[j] = s.stack[j]) ∧ Frame [.pc, .stack] s t) ∧
    (s.sp.val = 16 → exec (.call nnn) s = .fault (.stackOverflow s.pc s.fetchAddr))

/-- R101, R103: JP sets PC to nnn; JP V0 sets it to V0 + nnn with no wrap, unchecked. -/
def Obligations.JumpsSetPc : Prop :=
  ∀ (nnn : Addr) (s : State),
    (decodeWord (wordNNN 0x1000 nnn) = .ok (.jp nnn) ∧
      ∃ t, exec (.jp nnn) s = .next t ∧ t.pc.toNat = nnn.toNat ∧ Frame [.pc] s t) ∧
    (decodeWord (wordNNN 0xB000 nnn) = .ok (.jpV0 nnn) ∧
      ∃ t, exec (.jpV0 nnn) s = .next t ∧ t.pc.toNat = (s.getV 0).toNat + nnn.toNat ∧ t.pc.toNat ≤ 0x10FE ∧
        Frame [.pc] s t)

/-- R96-R98: pushes that fit are popped in exact reverse order, and one push too many does not fit. -/
def Obligations.StackIsLifo : Prop :=
  ∀ (vs : List Word) (s : State),
    (s.sp.val + vs.length ≤ 16 →
      ∃ t u, pushAll vs s = some t ∧ t.sp.val = s.sp.val + vs.length ∧
        popAll vs.length t = some (vs.reverse, u) ∧ u.sp = s.sp) ∧
    (16 < s.sp.val + vs.length → pushAll vs s = none)

/-- R105: a step of a parked state leaves every field unchanged. -/
def Obligations.ParkedStateStays : Prop :=
  ∀ s : State, s.pc.toNat ≤ 0xFFE → s.fetchWord = 0x1000 ||| s.pc → step s = .next s

/-! ### Skips -/

/-- R106-R109: each register skip adds 2 to PC exactly when its condition holds, and changes nothing else. -/
def Obligations.RegisterSkips : Prop :=
  ∀ (x y : Reg) (nn : Byte) (s : State),
    (decodeWord (wordXNN 0x3000 x nn) = .ok (.seImm x nn) ∧
      ∃ t, exec (.seImm x nn) s = .next t ∧ t.pc = (if s.getV x = nn then s.pc + 2 else s.pc) ∧ Frame [.pc] s t) ∧
    (decodeWord (wordXNN 0x4000 x nn) = .ok (.sneImm x nn) ∧
      ∃ t, exec (.sneImm x nn) s = .next t ∧ t.pc = (if s.getV x = nn then s.pc else s.pc + 2) ∧ Frame [.pc] s t) ∧
    (decodeWord (wordXY 0x5000 x y 0) = .ok (.seReg x y) ∧
      ∃ t, exec (.seReg x y) s = .next t ∧ t.pc = (if s.getV x = s.getV y then s.pc + 2 else s.pc) ∧
        Frame [.pc] s t) ∧
    (decodeWord (wordXY 0x9000 x y 0) = .ok (.sneReg x y) ∧
      ∃ t, exec (.sneReg x y) s = .next t ∧ t.pc = (if s.getV x = s.getV y then s.pc else s.pc + 2) ∧
        Frame [.pc] s t)

/-! ### ALU -/

/-- R110-R112: the loads and the flagless add. -/
def Obligations.LoadsAndAddImmediate : Prop :=
  ∀ (x y : Reg) (nn : Byte) (s : State),
    (decodeWord (wordXNN 0x6000 x nn) = .ok (.ldImm x nn) ∧
      ∃ t, exec (.ldImm x nn) s = .next t ∧ t.getV x = nn ∧ OtherRegsKept [x] s t ∧ Frame [.regs] s t) ∧
    (decodeWord (wordXNN 0x7000 x nn) = .ok (.addImm x nn) ∧
      ∃ t, exec (.addImm x nn) s = .next t ∧ (t.getV x).toNat = ((s.getV x).toNat + nn.toNat) % 256 ∧
        OtherRegsKept [x] s t ∧ Frame [.regs] s t) ∧
    (decodeWord (wordXY 0x8000 x y 0) = .ok (.ldReg x y) ∧
      ∃ t, exec (.ldReg x y) s = .next t ∧ t.getV x = s.getV y ∧ OtherRegsKept [x] s t ∧ Frame [.regs] s t)

/-- R113-R115: OR, AND and XOR, bit by bit; VF is written only as the destination. -/
def Obligations.LogicOperations : Prop :=
  ∀ (x y : Reg) (s : State),
    (decodeWord (wordXY 0x8001 x y 0) = .ok (.orReg x y) ∧
      ∃ t, exec (.orReg x y) s = .next t ∧
        (∀ b : Nat, (t.getV x).getLsbD b = ((s.getV x).getLsbD b || (s.getV y).getLsbD b)) ∧
        OtherRegsKept [x] s t ∧ Frame [.regs] s t) ∧
    (decodeWord (wordXY 0x8002 x y 0) = .ok (.andReg x y) ∧
      ∃ t, exec (.andReg x y) s = .next t ∧
        (∀ b : Nat, (t.getV x).getLsbD b = ((s.getV x).getLsbD b && (s.getV y).getLsbD b)) ∧
        OtherRegsKept [x] s t ∧ Frame [.regs] s t) ∧
    (decodeWord (wordXY 0x8003 x y 0) = .ok (.xorReg x y) ∧
      ∃ t, exec (.xorReg x y) s = .next t ∧
        (∀ b : Nat, (t.getV x).getLsbD b = ((s.getV x).getLsbD b ^^ (s.getV y).getLsbD b)) ∧
        OtherRegsKept [x] s t ∧ Frame [.regs] s t)

/-- R116: ADD with carry; with x = F the flag is the final value and the sum is lost. -/
def Obligations.AddWithCarry : Prop :=
  ∀ (x y : Reg) (s : State), decodeWord (wordXY 0x8004 x y 0) = .ok (.addReg x y) ∧
    ∃ t, exec (.addReg x y) s = .next t ∧
      (x ≠ 0xF → (t.getV x).toNat = ((s.getV x).toNat + (s.getV y).toNat) % 256) ∧
      t.getV 0xF = (if (s.getV x).toNat + (s.getV y).toNat > 255 then 1 else 0) ∧
      OtherRegsKept [x, 0xF] s t ∧ Frame [.regs] s t

/-- R117, R119: SUB and SUBN with not-borrow; with x = F the flag is the final value. -/
def Obligations.SubtractWithNotBorrow : Prop :=
  ∀ (x y : Reg) (s : State),
    (decodeWord (wordXY 0x8005 x y 0) = .ok (.subReg x y) ∧
      ∃ t, exec (.subReg x y) s = .next t ∧
        (x ≠ 0xF → ((t.getV x).toNat : Int) = (((s.getV x).toNat : Int) - (s.getV y).toNat) % 256) ∧
        t.getV 0xF = (if (s.getV x).toNat < (s.getV y).toNat then 0 else 1) ∧
        OtherRegsKept [x, 0xF] s t ∧ Frame [.regs] s t) ∧
    (decodeWord (wordXY 0x8007 x y 0) = .ok (.subnReg x y) ∧
      ∃ t, exec (.subnReg x y) s = .next t ∧
        (x ≠ 0xF → ((t.getV x).toNat : Int) = (((s.getV y).toNat : Int) - (s.getV x).toNat) % 256) ∧
        t.getV 0xF = (if (s.getV y).toNat < (s.getV x).toNat then 0 else 1) ∧
        OtherRegsKept [x, 0xF] s t ∧ Frame [.regs] s t)

/-- R118, R120, R76: the shifts of Vx by one, VF the bit shifted out, the y field without effect. -/
def Obligations.ShiftsByOne : Prop :=
  ∀ (x y z : Reg) (s : State),
    (decodeWord (wordXY 0x8006 x y 0) = .ok (.shr x y) ∧ exec (.shr x y) s = exec (.shr x z) s ∧
      ∃ t, exec (.shr x y) s = .next t ∧
        (x ≠ 0xF → (t.getV x).toNat = (s.getV x).toNat / 2) ∧
        (t.getV 0xF).toNat = (s.getV x).toNat % 2 ∧
        OtherRegsKept [x, 0xF] s t ∧ Frame [.regs] s t) ∧
    (decodeWord (wordXY 0x800E x y 0) = .ok (.shl x y) ∧ exec (.shl x y) s = exec (.shl x z) s ∧
      ∃ t, exec (.shl x y) s = .next t ∧
        (x ≠ 0xF → (t.getV x).toNat = (s.getV x).toNat * 2 % 256) ∧
        (t.getV 0xF).toNat = (s.getV x).toNat / 128 ∧
        OtherRegsKept [x, 0xF] s t ∧ Frame [.regs] s t)

/-- R121, R94: with the step's input r, any byte, RND makes Vx `r AND nn` and changes nothing else, and the results are
exactly the bytes whose set bits are a subset of nn's; the execute phase of every instruction leaves the model's draw
counter alone and does not read it, so no generator is state (R34). The clauses about exec rest on the model's choice
of log 3: r is the free byte, and the counter goes one on. They hold for every value of both. -/
def Obligations.RandomIsMaskedFreeDraw : Prop :=
  ∀ (x : Reg) (nn : Byte) (s : State), decodeWord (wordXNN 0xC000 x nn) = .ok (.rnd x nn) ∧
    (∀ r : Byte, ∃ t, execWith r (.rnd x nn) s = .next t ∧ t.getV x = r &&& nn ∧
      OtherRegsKept [x] s t ∧ Frame [.regs] s t) ∧
    (∀ b : Byte, b &&& nn = b ↔ ∃ r t, execWith r (.rnd x nn) s = .next t ∧ t.getV x = b) ∧
    (∀ (r : Byte) (i : Instr) (k : Nat) (t : State), execWith r i s = .next t →
      t.draws = s.draws ∧ execWith r i { s with draws := k } = .next { t with draws := k }) ∧
    (∃ t, exec (.rnd x nn) s = .next t ∧ t.getV x = s.draw &&& nn ∧
      OtherRegsKept [x] s t ∧ Frame [.regs, .draws] s t) ∧
    exec (.rnd x nn) s = .next (rndWith s.draw x nn s).countDraw

/-! ### Index register and memory -/

/-- R123-R125: the three writes of I, with the 16-bit wrap of ADD I and no mask in LD F. -/
def Obligations.IndexWrites : Prop :=
  ∀ (nnn : Addr) (x : Reg) (s : State),
    (decodeWord (wordNNN 0xA000 nnn) = .ok (.ldI nnn) ∧
      ∃ t, exec (.ldI nnn) s = .next t ∧ t.i.toNat = nnn.toNat ∧ Frame [.index] s t) ∧
    (decodeWord (wordX 0xF01E x) = .ok (.addI x) ∧
      ∃ t, exec (.addI x) s = .next t ∧ t.i.toNat = (s.i.toNat + (s.getV x).toNat) % 65536 ∧ Frame [.index] s t) ∧
    (decodeWord (wordX 0xF029 x) = .ok (.ldF x) ∧
      ∃ t, exec (.ldF x) s = .next t ∧ t.i.toNat = (s.getV x).toNat * 5 ∧ Frame [.index] s t)

/-- R126: LD B stores the decimal digits of Vx at I, I + 1, I + 2, or faults and stores nothing. -/
def Obligations.BcdStoresDigits : Prop :=
  ∀ (x : Reg) (s : State), Memory.wf s.mem = true →
    decodeWord (wordX 0xF033 x) = .ok (.ldB x) ∧
    (s.i.toNat + 2 ≤ 0xFFF →
      ∃ t, exec (.ldB x) s = .next t ∧
        (t.readByte s.i.toNat).toNat = (s.getV x).toNat / 100 ∧
        (t.readByte (s.i.toNat + 1)).toNat = (s.getV x).toNat / 10 % 10 ∧
        (t.readByte (s.i.toNat + 2)).toNat = (s.getV x).toNat % 10 ∧
        OtherBytesKept s.i.toNat 3 s t ∧ Frame [.memory] s t) ∧
    (0xFFF < s.i.toNat + 2 →
      exec (.ldB x) s = .fault (.addressOutOfRange (max s.i.toNat 0x1000) s.fetchAddr))

/-- R127: LD [I], Vx stores V0..Vx from I upward, I unchanged, or faults and stores nothing. -/
def Obligations.StoreBlock : Prop :=
  ∀ (x : Reg) (s : State), Memory.wf s.mem = true →
    decodeWord (wordX 0xF055 x) = .ok (.ldMemVx x) ∧
    (s.i.toNat + x.val ≤ 0xFFF →
      ∃ t, exec (.ldMemVx x) s = .next t ∧
        (∀ k : Reg, k ≤ x → t.readByte (s.i.toNat + k.val) = s.getV k) ∧
        OtherBytesKept s.i.toNat (x.val + 1) s t ∧ Frame [.memory] s t) ∧
    (0xFFF < s.i.toNat + x.val →
      exec (.ldMemVx x) s = .fault (.addressOutOfRange (max s.i.toNat 0x1000) s.fetchAddr))

/-- R128: LD Vx, [I] loads V0..Vx from I upward, I unchanged, or faults and loads nothing. -/
def Obligations.LoadBlock : Prop :=
  ∀ (x : Reg) (s : State), decodeWord (wordX 0xF065 x) = .ok (.ldVxMem x) ∧
    (s.i.toNat + x.val ≤ 0xFFF →
      ∃ t, exec (.ldVxMem x) s = .next t ∧
        (∀ k : Reg, k ≤ x → t.getV k = s.readByte (s.i.toNat + k.val)) ∧
        (∀ k : Reg, x < k → t.getV k = s.getV k) ∧ Frame [.regs] s t) ∧
    (0xFFF < s.i.toNat + x.val →
      exec (.ldVxMem x) s = .fault (.addressOutOfRange (max s.i.toNat 0x1000) s.fetchAddr))

/-- R128: storing V0..Vx and later loading V0..Vx from the same I, memory untouched between, restores them. -/
def Obligations.StoreThenLoadRestores : Prop :=
  ∀ (x : Reg) (s t u w : State), Memory.wf s.mem = true → exec (.ldMemVx x) s = .next t →
    u.mem = t.mem → u.i = t.i → exec (.ldVxMem x) u = .next w → ∀ k : Reg, k ≤ x → w.getV k = s.getV k

/-- R63: a word stored by Fx55 is the word the very next fetch of that address reads. -/
def Obligations.StoreIsFetchedNext : Prop :=
  ∀ (x : Reg) (s t : State), Memory.wf s.mem = true → 1 ≤ x.val → exec (.ldMemVx x) s = .next t → t.pc = s.i →
    fetch t = .ok (wordOfBytes (s.getV 0) (s.getV 1), { t with pc := t.pc + 2 })

/-! ### Framebuffer and sprites -/

/-- R129: CLS unlights every cell and changes nothing else, VF included. -/
def Obligations.ClsClears : Prop :=
  decodeWord 0x00E0 = .ok .cls ∧
  ∀ s : State, ∃ t, exec .cls s = .next t ∧ (∀ (cx : Fin 64) (cy : Fin 32), cell t.fb cx cy = false) ∧
    Frame [.screen] s t

/-- R130: DRW toggles exactly the cells under the sprite's set bits, wrapping at the edges, and sets VF to 1 exactly
when one of them was lit; it reads no memory when n = 0, and faults when a sprite byte is out of range. -/
def Obligations.DrawTogglesCoveredCells : Prop :=
  ∀ (x y : Reg) (n : Fin 16) (s : State),
    decodeWord (wordXY 0xD000 x y n.val) = .ok (.drw x y n) ∧
    (n.val = 0 ∨ s.i.toNat + n.val - 1 ≤ 0xFFF →
      ∃ t, exec (.drw x y n) s = .next t ∧
        (∀ (cx : Fin 64) (cy : Fin 32),
          (Covered s (s.getV x).toNat (s.getV y).toNat n.val cx cy → cell t.fb cx cy = !cell s.fb cx cy) ∧
          (¬ Covered s (s.getV x).toNat (s.getV y).toNat n.val cx cy → cell t.fb cx cy = cell s.fb cx cy)) ∧
        (t.getV 0xF = 1 ∨ t.getV 0xF = 0) ∧
        (t.getV 0xF = 1 ↔ ∃ (cx : Fin 64) (cy : Fin 32),
          Covered s (s.getV x).toNat (s.getV y).toNat n.val cx cy ∧ cell s.fb cx cy = true) ∧
        OtherRegsKept [0xF] s t ∧ Frame [.regs, .screen] s t) ∧
    (0 < n.val ∧ 0xFFF < s.i.toNat + n.val - 1 →
      exec (.drw x y n) s = .fault (.addressOutOfRange (max s.i.toNat 0x1000) s.fetchAddr))

/-- R131, R130: drawing the same sprite twice at the same position restores the framebuffer. The second draw reports a
collision exactly when some covered cell was unlit before the first: this condition is the model's deduction from R130
(log 10), where R131's own sentence has another. -/
def Obligations.DrawTwiceRestores : Prop :=
  ∀ (x y : Reg) (n : Fin 16) (s t u w : State), exec (.drw x y n) s = .next t →
    u.fb = t.fb → u.i = s.i → (∀ a, u.readByte a = s.readByte a) →
    u.getV x = s.getV x → u.getV y = s.getV y → exec (.drw x y n) u = .next w →
    w.fb = s.fb ∧
    (w.getV 0xF = 1 ↔ ∃ (cx : Fin 64) (cy : Fin 32),
      Covered s (s.getV x).toNat (s.getV y).toNat n.val cx cy ∧ cell s.fb cx cy = false)

/-- R131 as it is worded: a second draw of a sprite with a set bit always collides. It FAILS of R130's own rule when
every covered cell was lit before the first draw (log 10). -/
def Obligations.SecondDrawAlwaysCollides : Prop :=
  ∀ (x y : Reg) (n : Fin 16) (s t u w : State), exec (.drw x y n) s = .next t →
    u.fb = t.fb → u.i = s.i → (∀ a, u.readByte a = s.readByte a) →
    u.getV x = s.getV x → u.getV y = s.getV y → exec (.drw x y n) u = .next w →
    (∃ row, row < n.val ∧ s.readByte (s.i.toNat + row) ≠ 0) → w.getV 0xF = 1

/-! ### Keypad and timers -/

/-- R132, R133: SKP and SKNP skip on the key's latch and its complement, and fault when V[x] names no key. -/
def Obligations.KeySkips : Prop :=
  ∀ (x : Reg) (s : State),
    decodeWord (wordX 0xE09E x) = .ok (.skp x) ∧ decodeWord (wordX 0xE0A1 x) = .ok (.sknp x) ∧
    (∀ k : Fin 16, (s.getV x).toNat = k.val →
      (∃ t, exec (.skp x) s = .next t ∧ t.pc = (if s.keys[k] = true then s.pc + 2 else s.pc) ∧ Frame [.pc] s t) ∧
      (∃ t, exec (.sknp x) s = .next t ∧ t.pc = (if s.keys[k] = true then s.pc else s.pc + 2) ∧ Frame [.pc] s t)) ∧
    (15 < (s.getV x).toNat →
      exec (.skp x) s = .fault (.invalidKeyIndex (s.getV x) s.fetchAddr) ∧
      exec (.sknp x) s = .fault (.invalidKeyIndex (s.getV x) s.fetchAddr))

/-- R134: LD Vx, K captures the lowest latched key, or undoes the fetch advance when no key is latched. -/
def Obligations.KeyWaitCapturesLowest : Prop :=
  ∀ (x : Reg) (s : State), decodeWord (wordX 0xF00A x) = .ok (.ldVxK x) ∧
    (∀ k : Fin 16, s.keys[k] = true → (∀ j : Fin 16, j < k → s.keys[j] = false) →
      ∃ t, exec (.ldVxK x) s = .next t ∧ (t.getV x).toNat = k.val ∧ OtherRegsKept [x] s t ∧ Frame [.regs] s t) ∧
    ((∀ k : Fin 16, s.keys[k] = false) →
      ∃ t, exec (.ldVxK x) s = .next t ∧ t.pc = s.pc - 2 ∧ Frame [.pc] s t)

/-- R134, R35: a step of a waiting Fx0A leaves every field unchanged, PC = A included. -/
def Obligations.WaitingStepChangesNothing : Prop :=
  ∀ (x : Reg) (s : State), s.pc.toNat ≤ 0xFFE → decodeWord s.fetchWord = .ok (.ldVxK x) →
    (∀ k : Fin 16, s.keys[k] = false) → step s = .next s

/-- R135-R137: the timer reads and writes. -/
def Obligations.TimerTransfers : Prop :=
  ∀ (x : Reg) (s : State),
    (decodeWord (wordX 0xF007 x) = .ok (.ldVxDt x) ∧
      ∃ t, exec (.ldVxDt x) s = .next t ∧ t.getV x = s.dt ∧ OtherRegsKept [x] s t ∧ Frame [.regs] s t) ∧
    (decodeWord (wordX 0xF015 x) = .ok (.ldDtVx x) ∧
      ∃ t, exec (.ldDtVx x) s = .next t ∧ t.dt = s.getV x ∧ Frame [.delay] s t) ∧
    (decodeWord (wordX 0xF018 x) = .ok (.ldStVx x) ∧
      ∃ t, exec (.ldStVx x) s = .next t ∧ t.st = s.getV x ∧ Frame [.sound] s t)

/-! ### Host operations -/

/-- R154, R155: a tick counts both timers down, floored at 0, and signals tone-stop exactly when ST was 1; no other
operation gives the signal. -/
def Obligations.TickCountsDown : Prop :=
  ∀ (font : Vector Byte Config.fontBytes) (s : State),
    (∃ t, HostOp.tick.apply font s = .next (t, .toneStop (decide (s.st.toNat = 1))) ∧
      t.dt.toNat = s.dt.toNat - 1 ∧ t.st.toNat = s.st.toNat - 1 ∧ Frame [.delay, .sound] s t) ∧
    (∀ (op : HostOp) (t : State) (b : Bool), op.apply font s = .next (t, .toneStop b) → op = .tick)

/-- R156: key_set sets one latch and nothing else. That an index above 15, which is no operation of the host, answers
the refusal noSuchKey is the model's choice (log 7). -/
def Obligations.KeySetWritesOneLatch : Prop :=
  ∀ (font : Vector Byte Config.fontBytes) (p : Bool) (s : State),
    (∀ k : Fin 16, ∃ t, (HostOp.keySet k.val p).apply font s = .next (t, .ok) ∧ t.keys[k] = p ∧
      (∀ j : Fin 16, j ≠ k → t.keys[j] = s.keys[j]) ∧ Frame [.keypad] s t) ∧
    (∀ k : Nat, 15 < k → (HostOp.keySet k p).apply font s = .refused (.noSuchKey k))

/-- R65, R66: load writes the image from 0x200 and sets PC, and nothing else; an image too large is a fault. -/
def Obligations.LoadWritesImage : Prop :=
  ∀ (font : Vector Byte Config.fontBytes) (image : List Byte) (s : State), Memory.wf s.mem = true →
    (image.length ≤ 3584 →
      ∃ t, (HostOp.load image).apply font s = .next (t, .ok) ∧ t.pc = 0x200 ∧
        (∀ (k : Nat) (h : k < image.length), t.readByte (0x200 + k) = image[k]) ∧
        OtherBytesKept 0x200 image.length s t ∧ Frame [.pc, .memory] s t) ∧
    (3584 < image.length → (HostOp.load image).apply font s = .fault (.romTooLarge image.length) ∧
      (HostOp.load image).stateAfter font s = s)

/-- R37-R44, R162: what reset leaves, from any state and for any FONT. -/
def Obligations.ResetRestoresEverything : Prop :=
  ∀ (font : Vector Byte Config.fontBytes) (s : State),
    ∃ t, HostOp.reset.apply font s = .next (t, .ok) ∧
      (∀ r : Reg, t.getV r = 0) ∧ t.pc = 0x200 ∧ t.i = 0 ∧ t.sp.val = 0 ∧ (∀ k : Fin 16, t.stack[k] = 0) ∧
      t.dt = 0 ∧ t.st = 0 ∧ (∀ k : Fin 16, t.keys[k] = false) ∧
      (∀ (cx : Fin 64) (cy : Fin 32), cell t.fb cx cy = false) ∧
      (∀ (a : Nat) (h : a < 80), t.readByte a = font[a]) ∧
      (∀ a : Nat, 0x050 ≤ a → a ≤ 0xFFF → t.readByte a = 0)

/-- R161: a constructed state is the state after reset, for every FONT; and `State.reset` is the one with the default
FONT, which is the model's presumed value (log 1). -/
def Obligations.ConstructionIsReset : Prop :=
  ∀ font : Vector Byte Config.fontBytes,
    HostOp.reset.apply font (State.resetWith font) = .next (State.resetWith font, .ok) ∧
    (font.toList = defaultFont → State.resetWith font = State.reset)

/-- R157: fb_read returns the grid and changes no state. -/
def Obligations.FbReadIsReadOnly : Prop :=
  ∀ (font : Vector Byte Config.fontBytes) (s : State), HostOp.fbRead.apply font s = .next (s, .grid s.fb)

/-- R172, R149: a run ends at its first fault, and a schedule that is cut in two is run in two. -/
def Obligations.ScheduleStopsAtFirstFault : Prop :=
  ∀ (font : Vector Byte Config.fontBytes) (ops rest : List HostOp) (s : State),
    (∀ t, runSchedule font ops s = .next t → runSchedule font (ops ++ rest) s = runSchedule font rest t) ∧
    (∀ f, runSchedule font ops s = .fault f → runSchedule font (ops ++ rest) s = .fault f)

/-- R145, R156: a schedule with no step, no key index above 15 and no image above 3584 bytes never faults. -/
def Obligations.SchedulesWithoutStepsAreSafe : Prop :=
  ∀ (font : Vector Byte Config.fontBytes) (ops : List HostOp) (s : State),
    (∀ op ∈ ops, (∀ r, op ≠ .step r) ∧ op.wellFormed = true ∧ ∀ image, op = .load image → image.length ≤ 3584) →
    SafeRun font ops s
end

