-- ==== Sys2Proof/Laws/Encoding.lean ====
section
/-!
SUPPORT. The fields of the words that the formats of 30_encoding.md rule R69 build, and the bytes of a word.
-/
namespace Sys2Proof

@[simp] theorem opField_formNNN (op : BitVec 4) (nnn : Addr) : opField (formNNN op nnn) = op := by
  apply BitVec.eq_of_toNat_eq
  simp [opField, formNNN, Nat.shiftRight_eq_div_pow]
  omega

@[simp] theorem nnnField_formNNN (op : BitVec 4) (nnn : Addr) : nnnField (formNNN op nnn) = nnn := by
  apply BitVec.eq_of_toNat_eq
  simp [nnnField, formNNN, Nat.shiftRight_eq_div_pow]
  omega

@[simp] theorem opField_formXNN (op : BitVec 4) (x : Reg) (nn : Byte) : opField (formXNN op x nn) = op := by
  apply BitVec.eq_of_toNat_eq
  simp [opField, formXNN, Nat.shiftRight_eq_div_pow]
  omega

@[simp] theorem xField_formXNN (op : BitVec 4) (x : Reg) (nn : Byte) : xField (formXNN op x nn) = x := by
  apply Fin.eq_of_val_eq
  simp [xField, formXNN, Nat.shiftRight_eq_div_pow]
  omega

@[simp] theorem nnField_formXNN (op : BitVec 4) (x : Reg) (nn : Byte) : nnField (formXNN op x nn) = nn := by
  apply BitVec.eq_of_toNat_eq
  simp [nnField, formXNN, Nat.shiftRight_eq_div_pow]
  omega

@[simp] theorem opField_formXYN (op : BitVec 4) (x y : Reg) (n : BitVec 4) : opField (formXYN op x y n) = op := by
  apply BitVec.eq_of_toNat_eq
  simp [opField, formXYN, Nat.shiftRight_eq_div_pow]
  omega

@[simp] theorem xField_formXYN (op : BitVec 4) (x y : Reg) (n : BitVec 4) : xField (formXYN op x y n) = x := by
  apply Fin.eq_of_val_eq
  simp [xField, formXYN, Nat.shiftRight_eq_div_pow]
  omega

@[simp] theorem yField_formXYN (op : BitVec 4) (x y : Reg) (n : BitVec 4) : yField (formXYN op x y n) = y := by
  apply Fin.eq_of_val_eq
  simp [yField, formXYN, Nat.shiftRight_eq_div_pow]
  omega

@[simp] theorem nBits_formXYN (op : BitVec 4) (x y : Reg) (n : BitVec 4) : nBits (formXYN op x y n) = n := by
  apply BitVec.eq_of_toNat_eq
  simp [nBits, formXYN, Nat.shiftRight_eq_div_pow]
  omega

@[simp] theorem nField_formXYN (op : BitVec 4) (x y : Reg) (n : BitVec 4) : nField (formXYN op x y n) = n.toFin :=
  congrArg BitVec.toFin (nBits_formXYN op x y n)

/-- Storing a word's bytes and fetching them gives the word back (R56). -/
@[simp] theorem wordOfBytes_bytes (w : Word) : wordOfBytes (hiByte w) (loByte w) = w := by
  apply BitVec.eq_of_toNat_eq
  simp [wordOfBytes, hiByte, loByte, Nat.shiftRight_eq_div_pow]
  omega

/-- A word that matches no row comes back in the rejection (R71). -/
theorem decodeWord_error {w : Word} {e : DecodeError} (h : decodeWord w = .error e) :
    decodeRow w = none ∧ e = .unknownOpcode w := by
  unfold decodeWord at h
  split at h
  · cases h
  · cases h; exact ⟨‹_›, rfl⟩

/-- The decoder answers an instruction exactly when the dispatch finds a row. -/
theorem decodeWord_ok {w : Word} {i : Instr} : decodeWord w = .ok i ↔ decodeRow w = some i := by
  unfold decodeWord
  split <;> simp_all

/-- The bytes of a word decode to what the word decodes to. -/
theorem decodeBytes_pair {hi lo : Byte} {i : Instr} :
    decodeBytes [hi, lo] = .ok (i, []) ↔ decodeWord (wordOfBytes hi lo) = .ok i := by
  simp only [decodeBytes]
  split <;> simp_all

end Sys2Proof
end

