-- ==== Sys2Proof/Laws/State.lean ====
section
/-!
SUPPORT. One lemma per field per update of the state, so that no proof unfolds a record update, and the reads of a
register or a byte after each update.
-/
namespace Sys2Proof.Machine

variable (s : State)

/-! #### setV -/

@[simp] theorem setV_v (x : Reg) (b : Byte) : (s.setV x b).v = s.v.set x b := rfl
@[simp] theorem setV_pc (x : Reg) (b : Byte) : (s.setV x b).pc = s.pc := rfl
@[simp] theorem setV_i (x : Reg) (b : Byte) : (s.setV x b).i = s.i := rfl
@[simp] theorem setV_stack (x : Reg) (b : Byte) : (s.setV x b).stack = s.stack := rfl
@[simp] theorem setV_sp (x : Reg) (b : Byte) : (s.setV x b).sp = s.sp := rfl
@[simp] theorem setV_dt (x : Reg) (b : Byte) : (s.setV x b).dt = s.dt := rfl
@[simp] theorem setV_st (x : Reg) (b : Byte) : (s.setV x b).st = s.st := rfl
@[simp] theorem setV_keys (x : Reg) (b : Byte) : (s.setV x b).keys = s.keys := rfl
@[simp] theorem setV_fb (x : Reg) (b : Byte) : (s.setV x b).fb = s.fb := rfl
@[simp] theorem setV_mem (x : Reg) (b : Byte) : (s.setV x b).mem = s.mem := rfl
@[simp] theorem setV_draws (x : Reg) (b : Byte) : (s.setV x b).draws = s.draws := rfl
@[simp] theorem setV_readByte (x : Reg) (b : Byte) (addr : Nat) : (s.setV x b).readByte addr = s.readByte addr := rfl

/-! #### setFlag -/

@[simp] theorem setFlag_v (f : Byte) : (s.setFlag f).v = s.v.set VF f := rfl
@[simp] theorem setFlag_pc (f : Byte) : (s.setFlag f).pc = s.pc := rfl
@[simp] theorem setFlag_i (f : Byte) : (s.setFlag f).i = s.i := rfl
@[simp] theorem setFlag_stack (f : Byte) : (s.setFlag f).stack = s.stack := rfl
@[simp] theorem setFlag_sp (f : Byte) : (s.setFlag f).sp = s.sp := rfl
@[simp] theorem setFlag_dt (f : Byte) : (s.setFlag f).dt = s.dt := rfl
@[simp] theorem setFlag_st (f : Byte) : (s.setFlag f).st = s.st := rfl
@[simp] theorem setFlag_keys (f : Byte) : (s.setFlag f).keys = s.keys := rfl
@[simp] theorem setFlag_fb (f : Byte) : (s.setFlag f).fb = s.fb := rfl
@[simp] theorem setFlag_mem (f : Byte) : (s.setFlag f).mem = s.mem := rfl
@[simp] theorem setFlag_draws (f : Byte) : (s.setFlag f).draws = s.draws := rfl
@[simp] theorem setFlag_readByte (f : Byte) (addr : Nat) : (s.setFlag f).readByte addr = s.readByte addr := rfl

/-! #### setResultFlag -/

@[simp] theorem setResultFlag_v (x : Reg) (b f : Byte) : (s.setResultFlag x b f).v = (s.v.set x b).set VF f := rfl
@[simp] theorem setResultFlag_pc (x : Reg) (b f : Byte) : (s.setResultFlag x b f).pc = s.pc := rfl
@[simp] theorem setResultFlag_i (x : Reg) (b f : Byte) : (s.setResultFlag x b f).i = s.i := rfl
@[simp] theorem setResultFlag_stack (x : Reg) (b f : Byte) : (s.setResultFlag x b f).stack = s.stack := rfl
@[simp] theorem setResultFlag_sp (x : Reg) (b f : Byte) : (s.setResultFlag x b f).sp = s.sp := rfl
@[simp] theorem setResultFlag_dt (x : Reg) (b f : Byte) : (s.setResultFlag x b f).dt = s.dt := rfl
@[simp] theorem setResultFlag_st (x : Reg) (b f : Byte) : (s.setResultFlag x b f).st = s.st := rfl
@[simp] theorem setResultFlag_keys (x : Reg) (b f : Byte) : (s.setResultFlag x b f).keys = s.keys := rfl
@[simp] theorem setResultFlag_fb (x : Reg) (b f : Byte) : (s.setResultFlag x b f).fb = s.fb := rfl
@[simp] theorem setResultFlag_mem (x : Reg) (b f : Byte) : (s.setResultFlag x b f).mem = s.mem := rfl
@[simp] theorem setResultFlag_draws (x : Reg) (b f : Byte) : (s.setResultFlag x b f).draws = s.draws := rfl
@[simp] theorem setResultFlag_readByte (x : Reg) (b f : Byte) (addr : Nat) : (s.setResultFlag x b f).readByte addr = s.readByte addr := rfl

/-! #### writeBytes -/

@[simp] theorem writeBytes_v (a : Nat) (bs : List Byte) : (s.writeBytes a bs).v = s.v := rfl
@[simp] theorem writeBytes_pc (a : Nat) (bs : List Byte) : (s.writeBytes a bs).pc = s.pc := rfl
@[simp] theorem writeBytes_i (a : Nat) (bs : List Byte) : (s.writeBytes a bs).i = s.i := rfl
@[simp] theorem writeBytes_stack (a : Nat) (bs : List Byte) : (s.writeBytes a bs).stack = s.stack := rfl
@[simp] theorem writeBytes_sp (a : Nat) (bs : List Byte) : (s.writeBytes a bs).sp = s.sp := rfl
@[simp] theorem writeBytes_dt (a : Nat) (bs : List Byte) : (s.writeBytes a bs).dt = s.dt := rfl
@[simp] theorem writeBytes_st (a : Nat) (bs : List Byte) : (s.writeBytes a bs).st = s.st := rfl
@[simp] theorem writeBytes_keys (a : Nat) (bs : List Byte) : (s.writeBytes a bs).keys = s.keys := rfl
@[simp] theorem writeBytes_fb (a : Nat) (bs : List Byte) : (s.writeBytes a bs).fb = s.fb := rfl
@[simp] theorem writeBytes_mem (a : Nat) (bs : List Byte) : (s.writeBytes a bs).mem = Memory.writeBlock s.mem a bs := rfl
@[simp] theorem writeBytes_draws (a : Nat) (bs : List Byte) : (s.writeBytes a bs).draws = s.draws := rfl
@[simp] theorem writeBytes_getV (a : Nat) (bs : List Byte) (r : Reg) : (s.writeBytes a bs).getV r = s.getV r := rfl

/-! #### advance -/

@[simp] theorem advance_v : (s.advance).v = s.v := rfl
@[simp] theorem advance_pc : (s.advance).pc = s.pc + 2 := rfl
@[simp] theorem advance_i : (s.advance).i = s.i := rfl
@[simp] theorem advance_stack : (s.advance).stack = s.stack := rfl
@[simp] theorem advance_sp : (s.advance).sp = s.sp := rfl
@[simp] theorem advance_dt : (s.advance).dt = s.dt := rfl
@[simp] theorem advance_st : (s.advance).st = s.st := rfl
@[simp] theorem advance_keys : (s.advance).keys = s.keys := rfl
@[simp] theorem advance_fb : (s.advance).fb = s.fb := rfl
@[simp] theorem advance_mem : (s.advance).mem = s.mem := rfl
@[simp] theorem advance_draws : (s.advance).draws = s.draws := rfl
@[simp] theorem advance_readByte (addr : Nat) : (s.advance).readByte addr = s.readByte addr := rfl
@[simp] theorem advance_getV (r : Reg) : (s.advance).getV r = s.getV r := rfl

/-! #### jumpTo -/

@[simp] theorem jumpTo_v (t : Word) : (jumpTo t s).v = s.v := rfl
@[simp] theorem jumpTo_pc (t : Word) : (jumpTo t s).pc = t := rfl
@[simp] theorem jumpTo_i (t : Word) : (jumpTo t s).i = s.i := rfl
@[simp] theorem jumpTo_stack (t : Word) : (jumpTo t s).stack = s.stack := rfl
@[simp] theorem jumpTo_sp (t : Word) : (jumpTo t s).sp = s.sp := rfl
@[simp] theorem jumpTo_dt (t : Word) : (jumpTo t s).dt = s.dt := rfl
@[simp] theorem jumpTo_st (t : Word) : (jumpTo t s).st = s.st := rfl
@[simp] theorem jumpTo_keys (t : Word) : (jumpTo t s).keys = s.keys := rfl
@[simp] theorem jumpTo_fb (t : Word) : (jumpTo t s).fb = s.fb := rfl
@[simp] theorem jumpTo_mem (t : Word) : (jumpTo t s).mem = s.mem := rfl
@[simp] theorem jumpTo_draws (t : Word) : (jumpTo t s).draws = s.draws := rfl
@[simp] theorem jumpTo_readByte (t : Word) (addr : Nat) : (jumpTo t s).readByte addr = s.readByte addr := rfl
@[simp] theorem jumpTo_getV (t : Word) (r : Reg) : (jumpTo t s).getV r = s.getV r := rfl

/-! #### rndWith -/

@[simp] theorem rndWith_v (r : Byte) (x : Reg) (nn : Byte) : (rndWith r x nn s).v = s.v.set x (r &&& nn) := rfl
@[simp] theorem rndWith_pc (r : Byte) (x : Reg) (nn : Byte) : (rndWith r x nn s).pc = s.pc := rfl
@[simp] theorem rndWith_i (r : Byte) (x : Reg) (nn : Byte) : (rndWith r x nn s).i = s.i := rfl
@[simp] theorem rndWith_stack (r : Byte) (x : Reg) (nn : Byte) : (rndWith r x nn s).stack = s.stack := rfl
@[simp] theorem rndWith_sp (r : Byte) (x : Reg) (nn : Byte) : (rndWith r x nn s).sp = s.sp := rfl
@[simp] theorem rndWith_dt (r : Byte) (x : Reg) (nn : Byte) : (rndWith r x nn s).dt = s.dt := rfl
@[simp] theorem rndWith_st (r : Byte) (x : Reg) (nn : Byte) : (rndWith r x nn s).st = s.st := rfl
@[simp] theorem rndWith_keys (r : Byte) (x : Reg) (nn : Byte) : (rndWith r x nn s).keys = s.keys := rfl
@[simp] theorem rndWith_fb (r : Byte) (x : Reg) (nn : Byte) : (rndWith r x nn s).fb = s.fb := rfl
@[simp] theorem rndWith_mem (r : Byte) (x : Reg) (nn : Byte) : (rndWith r x nn s).mem = s.mem := rfl
@[simp] theorem rndWith_draws (r : Byte) (x : Reg) (nn : Byte) : (rndWith r x nn s).draws = s.draws := rfl
@[simp] theorem rndWith_readByte (r : Byte) (x : Reg) (nn : Byte) (addr : Nat) : (rndWith r x nn s).readByte addr = s.readByte addr := rfl

/-! #### countDraw -/

@[simp] theorem countDraw_v : s.countDraw.v = s.v := rfl
@[simp] theorem countDraw_pc : s.countDraw.pc = s.pc := rfl
@[simp] theorem countDraw_i : s.countDraw.i = s.i := rfl
@[simp] theorem countDraw_stack : s.countDraw.stack = s.stack := rfl
@[simp] theorem countDraw_sp : s.countDraw.sp = s.sp := rfl
@[simp] theorem countDraw_dt : s.countDraw.dt = s.dt := rfl
@[simp] theorem countDraw_st : s.countDraw.st = s.st := rfl
@[simp] theorem countDraw_keys : s.countDraw.keys = s.keys := rfl
@[simp] theorem countDraw_fb : s.countDraw.fb = s.fb := rfl
@[simp] theorem countDraw_mem : s.countDraw.mem = s.mem := rfl
@[simp] theorem countDraw_draws : s.countDraw.draws = s.draws + 1 := rfl
@[simp] theorem countDraw_readByte (addr : Nat) : s.countDraw.readByte addr = s.readByte addr := rfl
@[simp] theorem countDraw_getV (r : Reg) : s.countDraw.getV r = s.getV r := rfl

/-! #### withBlit -/

@[simp] theorem withBlit_v (c : Blit) : (s.withBlit c).v = s.v.set VF (collisionFlag c.hit) := rfl
@[simp] theorem withBlit_pc (c : Blit) : (s.withBlit c).pc = s.pc := rfl
@[simp] theorem withBlit_i (c : Blit) : (s.withBlit c).i = s.i := rfl
@[simp] theorem withBlit_stack (c : Blit) : (s.withBlit c).stack = s.stack := rfl
@[simp] theorem withBlit_sp (c : Blit) : (s.withBlit c).sp = s.sp := rfl
@[simp] theorem withBlit_dt (c : Blit) : (s.withBlit c).dt = s.dt := rfl
@[simp] theorem withBlit_st (c : Blit) : (s.withBlit c).st = s.st := rfl
@[simp] theorem withBlit_keys (c : Blit) : (s.withBlit c).keys = s.keys := rfl
@[simp] theorem withBlit_fb (c : Blit) : (s.withBlit c).fb = c.fb := rfl
@[simp] theorem withBlit_mem (c : Blit) : (s.withBlit c).mem = s.mem := rfl
@[simp] theorem withBlit_draws (c : Blit) : (s.withBlit c).draws = s.draws := rfl
@[simp] theorem withBlit_readByte (c : Blit) (addr : Nat) : (s.withBlit c).readByte addr = s.readByte addr := rfl

/-! #### tick -/

@[simp] theorem tick_v : (tick s).v = s.v := rfl
@[simp] theorem tick_pc : (tick s).pc = s.pc := rfl
@[simp] theorem tick_i : (tick s).i = s.i := rfl
@[simp] theorem tick_stack : (tick s).stack = s.stack := rfl
@[simp] theorem tick_sp : (tick s).sp = s.sp := rfl
@[simp] theorem tick_dt : (tick s).dt = countDown s.dt := rfl
@[simp] theorem tick_st : (tick s).st = countDown s.st := rfl
@[simp] theorem tick_keys : (tick s).keys = s.keys := rfl
@[simp] theorem tick_fb : (tick s).fb = s.fb := rfl
@[simp] theorem tick_mem : (tick s).mem = s.mem := rfl
@[simp] theorem tick_draws : (tick s).draws = s.draws := rfl
@[simp] theorem tick_readByte (addr : Nat) : (tick s).readByte addr = s.readByte addr := rfl
@[simp] theorem tick_getV (r : Reg) : (tick s).getV r = s.getV r := rfl

/-! #### keySet -/

@[simp] theorem keySet_v (k : Fin Config.numKeys) (p : Bool) : (keySet k p s).v = s.v := rfl
@[simp] theorem keySet_pc (k : Fin Config.numKeys) (p : Bool) : (keySet k p s).pc = s.pc := rfl
@[simp] theorem keySet_i (k : Fin Config.numKeys) (p : Bool) : (keySet k p s).i = s.i := rfl
@[simp] theorem keySet_stack (k : Fin Config.numKeys) (p : Bool) : (keySet k p s).stack = s.stack := rfl
@[simp] theorem keySet_sp (k : Fin Config.numKeys) (p : Bool) : (keySet k p s).sp = s.sp := rfl
@[simp] theorem keySet_dt (k : Fin Config.numKeys) (p : Bool) : (keySet k p s).dt = s.dt := rfl
@[simp] theorem keySet_st (k : Fin Config.numKeys) (p : Bool) : (keySet k p s).st = s.st := rfl
@[simp] theorem keySet_keys (k : Fin Config.numKeys) (p : Bool) : (keySet k p s).keys = s.keys.set k p := rfl
@[simp] theorem keySet_fb (k : Fin Config.numKeys) (p : Bool) : (keySet k p s).fb = s.fb := rfl
@[simp] theorem keySet_mem (k : Fin Config.numKeys) (p : Bool) : (keySet k p s).mem = s.mem := rfl
@[simp] theorem keySet_draws (k : Fin Config.numKeys) (p : Bool) : (keySet k p s).draws = s.draws := rfl
@[simp] theorem keySet_readByte (k : Fin Config.numKeys) (p : Bool) (addr : Nat) : (keySet k p s).readByte addr = s.readByte addr := rfl
@[simp] theorem keySet_getV (k : Fin Config.numKeys) (p : Bool) (r : Reg) : (keySet k p s).getV r = s.getV r := rfl

/-! #### loadImage -/

@[simp] theorem loadImage_v (bs : List Byte) : (loadImage bs s).v = s.v := rfl
@[simp] theorem loadImage_pc (bs : List Byte) : (loadImage bs s).pc = BitVec.ofNat 16 Config.progBase := rfl
@[simp] theorem loadImage_i (bs : List Byte) : (loadImage bs s).i = s.i := rfl
@[simp] theorem loadImage_stack (bs : List Byte) : (loadImage bs s).stack = s.stack := rfl
@[simp] theorem loadImage_sp (bs : List Byte) : (loadImage bs s).sp = s.sp := rfl
@[simp] theorem loadImage_dt (bs : List Byte) : (loadImage bs s).dt = s.dt := rfl
@[simp] theorem loadImage_st (bs : List Byte) : (loadImage bs s).st = s.st := rfl
@[simp] theorem loadImage_keys (bs : List Byte) : (loadImage bs s).keys = s.keys := rfl
@[simp] theorem loadImage_fb (bs : List Byte) : (loadImage bs s).fb = s.fb := rfl
@[simp] theorem loadImage_mem (bs : List Byte) : (loadImage bs s).mem = Memory.writeBlock s.mem Config.progBase bs := rfl
@[simp] theorem loadImage_draws (bs : List Byte) : (loadImage bs s).draws = s.draws := rfl
@[simp] theorem loadImage_getV (bs : List Byte) (r : Reg) : (loadImage bs s).getV r = s.getV r := rfl

/-! #### the skip primitive -/

@[simp] theorem skipIf_v (c : Bool) : (skipIf c s).v = s.v := by cases c <;> rfl
@[simp] theorem skipIf_pc (c : Bool) : (skipIf c s).pc = if c then s.pc + 2 else s.pc := by
  cases c <;> rfl
@[simp] theorem skipIf_i (c : Bool) : (skipIf c s).i = s.i := by cases c <;> rfl
@[simp] theorem skipIf_stack (c : Bool) : (skipIf c s).stack = s.stack := by cases c <;> rfl
@[simp] theorem skipIf_sp (c : Bool) : (skipIf c s).sp = s.sp := by cases c <;> rfl
@[simp] theorem skipIf_dt (c : Bool) : (skipIf c s).dt = s.dt := by cases c <;> rfl
@[simp] theorem skipIf_st (c : Bool) : (skipIf c s).st = s.st := by cases c <;> rfl
@[simp] theorem skipIf_keys (c : Bool) : (skipIf c s).keys = s.keys := by cases c <;> rfl
@[simp] theorem skipIf_fb (c : Bool) : (skipIf c s).fb = s.fb := by cases c <;> rfl
@[simp] theorem skipIf_mem (c : Bool) : (skipIf c s).mem = s.mem := by cases c <;> rfl
@[simp] theorem skipIf_draws (c : Bool) : (skipIf c s).draws = s.draws := by cases c <;> rfl

/-! #### registers after a write -/

/-- Reading a register after writing one. -/
theorem getV_setV (x r : Reg) (b : Byte) : (s.setV x b).getV r = if r = x then b else s.getV r := by
  unfold State.getV State.setV
  by_cases h : r = x
  · subst h; simp
  · have : x.val ≠ r.val := fun e => h (Fin.eq_of_val_eq e.symm)
    simp [h, this]

@[simp] theorem getV_setV_same (x : Reg) (b : Byte) : (s.setV x b).getV x = b := by simp [getV_setV]

theorem getV_setV_ne {x r : Reg} (b : Byte) (h : r ≠ x) : (s.setV x b).getV r = s.getV r := by
  simp [getV_setV, h]

/-- The flag is VF's final value, whatever the destination (R89). -/
@[simp] theorem getV_setResultFlag_flag (x : Reg) (b f : Byte) : (s.setResultFlag x b f).getV VF = f :=
  getV_setV_same _ _ _

/-- A result survives in its register unless the register is VF (R89). -/
theorem getV_setResultFlag_result {x : Reg} (b f : Byte) (h : x ≠ VF) : (s.setResultFlag x b f).getV x = b := by
  unfold State.setResultFlag State.setFlag
  rw [getV_setV_ne _ _ h, getV_setV_same]

/-- No other register changes. -/
theorem getV_setResultFlag_ne {x r : Reg} (b f : Byte) (hx : r ≠ x) (hf : r ≠ VF) :
    (s.setResultFlag x b f).getV r = s.getV r := by
  unfold State.setResultFlag State.setFlag
  rw [getV_setV_ne _ _ hf, getV_setV_ne _ _ hx]

end Sys2Proof.Machine
end

