-- ==== Sys2Proof/Laws/Memory.lean ====
section
/-!
SUPPORT. The laws of memory (20_memory.md rules R50, R51, R58): what a read gives after a write, that a write
changes only its own cell, and that every memory operation keeps the canonical form (log 6).
-/
namespace Sys2Proof.Machine

/-- An address below every listed one is unlisted. -/
theorem read_of_lt_wfFrom {lo a : Nat} : ∀ {m : Memory}, Memory.wfFrom lo m = true → a < lo →
    Memory.read m a = unlisted a
  | [], _, _ => rfl
  | (k, b) :: m, h, ha => by
    simp only [Memory.wfFrom, Bool.and_eq_true, decide_eq_true_eq] at h
    have hk : a ≠ k := by omega
    simp only [Memory.read, hk, if_false]
    exact read_of_lt_wfFrom h.2 (by omega)

/-- The lower bound of a canonical list may be lowered. -/
theorem wfFrom_mono {lo lo' : Nat} (hl : lo ≤ lo') : ∀ {m : Memory}, Memory.wfFrom lo' m = true →
    Memory.wfFrom lo m = true
  | [], _ => rfl
  | (k, b) :: m, h => by
    simp only [Memory.wfFrom, Bool.and_eq_true, decide_eq_true_eq] at h ⊢
    exact ⟨⟨⟨by omega, h.1.1.2⟩, h.1.2⟩, h.2⟩

/-- A write changes only its own cell (R58): no premise on the memory. -/
theorem read_write_ne {a a' : Nat} (b : Byte) (h : a' ≠ a) : ∀ m : Memory,
    Memory.read (Memory.write m a b) a' = Memory.read m a'
  | [] => by
    unfold Memory.write
    split <;> simp [Memory.read, h]
  | (k, c) :: m => by
    unfold Memory.write
    by_cases h1 : a < k
    · simp only [h1, if_true]
      split <;> simp [Memory.read, h]
    · by_cases h2 : a = k
      · subst h2
        simp only [Nat.lt_irrefl, if_false, if_true]
        split <;> simp [Memory.read, h]
      · simp only [h1, h2, if_false, Memory.read]
        rw [read_write_ne b h m]

/-- A read gives the byte last written at the address (R58). -/
theorem read_write_same {lo a : Nat} (b : Byte) : ∀ {m : Memory}, Memory.wfFrom lo m = true →
    Memory.read (Memory.write m a b) a = b
  | [], _ => by
    unfold Memory.write
    split <;> simp_all [Memory.read]
  | (k, c) :: m, h => by
    have hm := h
    simp only [Memory.wfFrom, Bool.and_eq_true, decide_eq_true_eq] at hm
    unfold Memory.write
    by_cases h1 : a < k
    · simp only [h1, if_true]
      split
      · have hk : a ≠ k := by omega
        have hr : Memory.read m a = unlisted a := read_of_lt_wfFrom hm.2 (by omega)
        simp_all [Memory.read]
      · simp [Memory.read]
    · by_cases h2 : a = k
      · subst h2
        simp only [Nat.lt_irrefl, if_false, if_true]
        split
        · have hr : Memory.read m a = unlisted a := read_of_lt_wfFrom hm.2 (by omega)
          simp_all
        · simp [Memory.read]
      · simp only [h1, h2, if_false, Memory.read]
        exact read_write_same b hm.2

/-- A write to an address of the machine keeps the canonical form. -/
theorem wfFrom_write {lo a : Nat} (b : Byte) (ha : a < Config.memSize) : ∀ {m : Memory} , lo ≤ a →
    Memory.wfFrom lo m = true → Memory.wfFrom lo (Memory.write m a b) = true
  | [], hl, _ => by
    unfold Memory.write
    split <;> simp_all [Memory.wfFrom]
  | (k, c) :: m, hl, h => by
    have hm := h
    simp only [Memory.wfFrom, Bool.and_eq_true, decide_eq_true_eq] at hm
    unfold Memory.write
    by_cases h1 : a < k
    · simp only [h1, if_true]
      split
      · exact h
      · simp only [Memory.wfFrom, Bool.and_eq_true, decide_eq_true_eq]
        exact ⟨⟨⟨hl, ha⟩, ‹_›⟩, ⟨⟨by omega, hm.1.1.2⟩, hm.1.2⟩, hm.2⟩
    · by_cases h2 : a = k
      · subst h2
        simp only [Nat.lt_irrefl, if_false, if_true]
        split
        · exact wfFrom_mono (by omega) hm.2
        · simp only [Memory.wfFrom, Bool.and_eq_true, decide_eq_true_eq]
          exact ⟨⟨⟨hl, ha⟩, ‹_›⟩, hm.2⟩
      · simp only [h1, h2, if_false, Memory.wfFrom, Bool.and_eq_true, decide_eq_true_eq]
        exact ⟨hm.1, wfFrom_write b ha (by omega) hm.2⟩

theorem wf_write {m : Memory} {a : Nat} (b : Byte) (ha : a < Config.memSize) (h : Memory.wf m = true) :
    Memory.wf (Memory.write m a b) = true := wfFrom_write b ha (Nat.zero_le a) h

/-- Storing a block inside the machine's memory keeps the canonical form. -/
theorem wf_writeBlock : ∀ (bs : List Byte) {m : Memory} {base : Nat}, base + bs.length ≤ Config.memSize →
    Memory.wf m = true → Memory.wf (Memory.writeBlock m base bs) = true
  | [], _, _, _, h => h
  | b :: bs, m, base, hb, h => by
    simp only [List.length_cons] at hb
    exact wf_writeBlock bs (by omega) (wf_write b (by omega) h)

/-- A block store changes only its own cells (R58). -/
theorem read_writeBlock_out : ∀ (bs : List Byte) (m : Memory) (base : Nat) {a : Nat},
    a < base ∨ base + bs.length ≤ a → Memory.read (Memory.writeBlock m base bs) a = Memory.read m a
  | [], _, _, _, _ => rfl
  | b :: bs, m, base, a, h => by
    simp only [List.length_cons] at h
    rw [Memory.writeBlock, read_writeBlock_out bs _ (base + 1) (by omega), read_write_ne b (by omega)]

/-- Each byte of a stored block reads back (R58). -/
theorem read_writeBlock_in : ∀ (bs : List Byte) {m : Memory} {base k : Nat}, Memory.wf m = true →
    base + bs.length ≤ Config.memSize → (hk : k < bs.length) →
    Memory.read (Memory.writeBlock m base bs) (base + k) = bs[k]
  | b :: bs, m, base, 0, h, hb, _ => by
    rw [Memory.writeBlock, read_writeBlock_out bs _ _ (by omega)]
    exact read_write_same b h
  | b :: bs, m, base, k + 1, h, hb, hk => by
    simp only [List.length_cons] at hb hk
    have := read_writeBlock_in bs (m := Memory.write m base b) (base := base + 1) (k := k)
      (wf_write b (by omega) h) (by omega) (by omega)
    rw [Memory.writeBlock, List.getElem_cons_succ, ← this]
    congr 1; omega

@[simp] theorem length_readBlock (m : Memory) : ∀ (n base : Nat), (Memory.readBlock m base n).length = n
  | 0, _ => rfl
  | n + 1, base => by simp [Memory.readBlock, length_readBlock m n]

/-- The k-th byte of a block read. -/
theorem getElem_readBlock (m : Memory) : ∀ (n base k : Nat) (h : k < (Memory.readBlock m base n).length),
    (Memory.readBlock m base n)[k] = Memory.read m (base + k)
  | n + 1, base, 0, _ => rfl
  | n + 1, base, k + 1, h => by
    simp only [Memory.readBlock, List.getElem_cons_succ]
    rw [getElem_readBlock m n (base + 1) k]
    congr 1; omega

/-- Reset memory is canonical. -/
theorem wf_reset : Memory.wf State.reset.mem = true := rfl

end Sys2Proof.Machine
end

