-- ==== Sys2Proof/Laws/Ops.lean ====
section
/-!
SUPPORT. One lemma per shared operation: everything it can answer, for proofs to cite instead of unfolding it.
-/
namespace Sys2Proof.Machine

/-- The address decoder's check in arithmetic (R48, R52). -/
theorem inRange_iff {base count : Nat} : inRange base count = true ↔ count = 0 ∨ base + count - 1 ≤ 0xFFF := by
  simp only [inRange, Bool.or_eq_true, beq_iff_eq, decide_eq_true_eq, Config.memSize]
  omega

/-- A guarded access in range runs its body. -/
theorem guardRange_in {base count : Nat} {s : State} {k : State → Result} (h : inRange base count = true) :
    guardRange base count s k = k s := by simp [guardRange, h]

/-- A guarded access out of range faults with the smallest bad address (R52). -/
theorem guardRange_out {base count : Nat} {s : State} {k : State → Result} (h : inRange base count = false) :
    guardRange base count s k = .fault (.addressOutOfRange (max base 0x1000) s.fetchAddr) := by
  simp [guardRange, h, raise, firstOutOfRange]

/-- A guarded access that answers a next state was in range, and the body answered it. -/
theorem guardRange_next {base count : Nat} {s t : State} {k : State → Result}
    (h : guardRange base count s k = .next t) : inRange base count = true ∧ k s = .next t := by
  unfold guardRange at h
  split at h
  · exact ⟨‹_›, h⟩
  · cases h

/-- The range of an access that passed the guard ends inside memory. -/
theorem end_of_inRange {base count : Nat} (h : inRange base count = true) (hc : count ≠ 0) :
    base + count ≤ Config.memSize := by
  rcases inRange_iff.1 h with h | h
  · exact absurd h hc
  · show base + count ≤ 4096
    omega

/-- Raising answers a fault, never a next state or a refusal (R145). -/
theorem raise_eq (f : Word → Fault) (s : State) : raise f s = .fault (f s.fetchAddr) := rfl

/-- What a key operand can answer (R132, R133, R144). -/
theorem withKey_cases (x : Reg) (s : State) (k : Bool → Result) :
    (∃ j : Fin 16, (s.getV x).toNat = j.val ∧ withKey x s k = k s.keys[j]) ∨
    (15 < (s.getV x).toNat ∧ withKey x s k = .fault (.invalidKeyIndex (s.getV x) s.fetchAddr)) := by
  unfold withKey
  split
  · exact .inl ⟨⟨_, ‹_›⟩, rfl, rfl⟩
  · right
    refine ⟨?_, rfl⟩
    have : ¬ (s.getV x).toNat < 16 := ‹_›
    omega

/-- A push onto a stack that is not full (R96). -/
theorem push_of_lt {r : Word} {s : State} (h : s.sp.val < 16) :
    push r s = some { s with stack := s.stack.set s.sp.val r, sp := ⟨s.sp.val + 1, Nat.succ_lt_succ h⟩ } :=
  dif_pos h

/-- A push onto a full stack does nothing (R96). -/
theorem push_full {r : Word} {s : State} (h : s.sp.val = 16) : push r s = none :=
  dif_neg (by rw [h]; decide)

/-- A pop of a stack that holds `k + 1` addresses (R97). -/
theorem pop_of_eq {s : State} {k : Fin 16} (h : s.sp.val = k.val + 1) :
    pop s = some (s.stack[k], { s with sp := ⟨k.val, by omega⟩ }) := by
  unfold pop
  rw [dif_pos (by omega)]
  simp [h]

/-- A pop of an empty stack does nothing (R97). -/
theorem pop_empty {s : State} (h : s.sp.val = 0) : pop s = none := dif_neg (by omega)

/-- The fetch in range (R84, R85). -/
theorem fetch_of_le {s : State} (h : s.pc.toNat ≤ 0xFFE) : fetch s = .ok (s.fetchWord, s.advance) := by
  unfold fetch
  rw [if_pos (inRange_iff.2 (.inr (by show s.pc.toNat + 2 - 1 ≤ 0xFFF; omega)))]

/-- The fetch out of range (R84). -/
theorem fetch_of_gt {s : State} (h : 0xFFE < s.pc.toNat) :
    fetch s = .error (.addressOutOfRange (max s.pc.toNat 0x1000) s.pc) := by
  unfold fetch
  rw [if_neg]
  · rfl
  · rw [inRange_iff]
    show ¬ (2 = 0 ∨ s.pc.toNat + 2 - 1 ≤ 0xFFF)
    omega

/-- After the fetch advance, A is the PC before it (R85). -/
@[simp] theorem fetchAddr_advance (s : State) : s.advance.fetchAddr = s.pc := by
  simp [State.fetchAddr, State.advance]

/-- Everything a cycle can answer (R95): a fetch fault, an unknown opcode, or what the execute phase does. -/
theorem cycle_cases (execute : Instr → State → Result) (s : State) :
    (0xFFE < s.pc.toNat ∧ cycle execute s = .fault (.addressOutOfRange (max s.pc.toNat 0x1000) s.pc)) ∨
    (s.pc.toNat ≤ 0xFFE ∧ decodeRow s.fetchWord = none ∧
      cycle execute s = .fault (.unknownOpcode s.fetchWord s.pc)) ∨
    (s.pc.toNat ≤ 0xFFE ∧ ∃ i, decodeWord s.fetchWord = .ok i ∧ cycle execute s = execute i s.advance) := by
  by_cases h : s.pc.toNat ≤ 0xFFE
  · right
    unfold cycle decodeFetched
    rw [fetch_of_le h]
    cases hd : decodeWord s.fetchWord with
    | error e => exact .inl ⟨h, (decodeWord_error hd).1, by simp [hd]⟩
    | ok i => exact .inr ⟨h, i, rfl, by simp [hd]⟩
  · left
    refine ⟨by omega, ?_⟩
    unfold cycle
    rw [fetch_of_gt (by omega)]

/-- A cycle that answers a next state ran the decoded instruction. -/
theorem cycle_next {execute : Instr → State → Result} {s t : State} (h : cycle execute s = .next t) :
    s.pc.toNat ≤ 0xFFE ∧ ∃ i, decodeWord s.fetchWord = .ok i ∧ execute i s.advance = .next t := by
  rcases cycle_cases execute s with ⟨_, h'⟩ | ⟨_, _, h'⟩ | ⟨hp, i, hd, h'⟩
  · rw [h'] at h; cases h
  · rw [h'] at h; cases h
  · exact ⟨hp, i, hd, h' ▸ h⟩

/-- Everything a step can answer (R95). -/
theorem step_cases (s : State) :
    (0xFFE < s.pc.toNat ∧ step s = .fault (.addressOutOfRange (max s.pc.toNat 0x1000) s.pc)) ∨
    (s.pc.toNat ≤ 0xFFE ∧ decodeRow s.fetchWord = none ∧ step s = .fault (.unknownOpcode s.fetchWord s.pc)) ∨
    (s.pc.toNat ≤ 0xFFE ∧ ∃ i, decodeWord s.fetchWord = .ok i ∧ step s = exec i s.advance) := cycle_cases exec s

/-- A step that answers a next state ran the decoded instruction. -/
theorem step_next {s t : State} (h : step s = .next t) :
    s.pc.toNat ≤ 0xFFE ∧ ∃ i, decodeWord s.fetchWord = .ok i ∧ exec i s.advance = .next t := cycle_next h

/-- Everything the operation step can answer, whatever its input r (R94, R95). -/
theorem stepWith_cases (r : Byte) (s : State) :
    (0xFFE < s.pc.toNat ∧ stepWith r s = .fault (.addressOutOfRange (max s.pc.toNat 0x1000) s.pc)) ∨
    (s.pc.toNat ≤ 0xFFE ∧ decodeRow s.fetchWord = none ∧ stepWith r s = .fault (.unknownOpcode s.fetchWord s.pc)) ∨
    (s.pc.toNat ≤ 0xFFE ∧ ∃ i, decodeWord s.fetchWord = .ok i ∧ stepWith r s = execWith r i s.advance) :=
  cycle_cases (execWith r) s

/-- The operation step that answers a next state ran the decoded instruction. -/
theorem stepWith_next {r : Byte} {s t : State} (h : stepWith r s = .next t) :
    s.pc.toNat ≤ 0xFFE ∧ ∃ i, decodeWord s.fetchWord = .ok i ∧ execWith r i s.advance = .next t := cycle_next h

/-- Only Cxnn reads the step's input (R94). -/
theorem execWith_eq_exec {r : Byte} {i : Instr} {s : State} (h : ∀ x nn, i ≠ .rnd x nn) :
    execWith r i s = exec i s := by
  cases i <;> first | rfl | exact absurd rfl (h _ _)

/-- `exec` is the execute phase on the free byte, the draw counter of a Cxnn aside (log 3). -/
theorem exec_eq_execWith (i : Instr) (s : State) :
    exec i s = execWith s.draw i s ∨ ∃ x nn, i = .rnd x nn ∧ exec i s = .next (rndWith s.draw x nn s).countDraw := by
  cases i <;> first | exact .inl rfl | exact .inr ⟨_, _, rfl, rfl⟩

/-- A guarded access leaves the draw counter alone when its body does. -/
theorem guardRange_draws {base count k : Nat} {s t : State} {f : State → Result}
    (hf : ∀ {t}, f s = .next t → t.draws = s.draws ∧ f { s with draws := k } = .next { t with draws := k })
    (h : guardRange base count s f = .next t) :
    t.draws = s.draws ∧ guardRange base count { s with draws := k } f = .next { t with draws := k } := by
  obtain ⟨hr, h⟩ := guardRange_next h
  rw [guardRange_in hr]
  exact hf h

/-- A skip does not read the draw counter. -/
theorem skipIf_setDraws (c : Bool) (s : State) (k : Nat) :
    skipIf c { s with draws := k } = { skipIf c s with draws := k } := by cases c <;> rfl

/-- A key operand leaves the draw counter alone when what follows it does. -/
theorem withKey_draws {x : Reg} {k : Nat} {s t : State} {f : Bool → State → State}
    (hf : ∀ p, (f p s).draws = s.draws ∧ f p { s with draws := k } = { f p s with draws := k })
    (h : (withKey x s fun p => .next (f p s)) = .next t) :
    t.draws = s.draws ∧ (withKey x { s with draws := k } fun p => .next (f p { s with draws := k })) =
      .next { t with draws := k } := by
  unfold withKey at h ⊢
  split at h
  · cases h
    rename_i hx
    exact ⟨(hf _).1, (dif_pos hx).trans (congrArg _ (hf _).2)⟩
  · cases h

/-- The execute phase neither reads nor writes the model's own draw counter: no generator is state (R34). -/
theorem execWith_draws {r : Byte} {i : Instr} {s t : State} (k : Nat) (h : execWith r i s = .next t) :
    t.draws = s.draws ∧ execWith r i { s with draws := k } = .next { t with draws := k } := by
  have hskip : ∀ c, t = skipIf c s → t.draws = s.draws ∧
      Host.Outcome.next (skipIf c { s with draws := k }) = (.next { t with draws := k } : Result) := by
    rintro c rfl
    exact ⟨skipIf_draws s c, congrArg _ (skipIf_setDraws c s k)⟩
  cases i with
  | seImm | sneImm | seReg | sneReg => injection h with h; exact hskip _ h.symm
  | skp x => exact withKey_draws (x := x) (f := fun p => skipIf p) (fun p => ⟨skipIf_draws s _, skipIf_setDraws _ s k⟩) h
  | sknp x =>
    exact withKey_draws (x := x) (f := fun p => skipIf (!p)) (fun p => ⟨skipIf_draws s _, skipIf_setDraws _ s k⟩) h
  | drw x y n =>
    exact guardRange_draws (base := s.base) (count := n.val) (f := fun s => .next (s.withBlit
      (blit (s.getV x).toNat (s.getV y).toNat (Memory.readBlock s.mem s.base n.val) s.fb)))
      (fun h => by cases h; exact ⟨rfl, rfl⟩) h
  | ldB x =>
    exact guardRange_draws (base := s.base) (count := 3)
      (f := fun s => .next (s.writeBytes s.base (bcdDigits (s.getV x)))) (fun h => by cases h; exact ⟨rfl, rfl⟩) h
  | ldMemVx x =>
    exact guardRange_draws (base := s.base) (count := x.val + 1)
      (f := fun s => .next (s.writeBytes s.base (blockRegs x s))) (fun h => by cases h; exact ⟨rfl, rfl⟩) h
  | ldVxMem x =>
    exact guardRange_draws (base := s.base) (count := x.val + 1)
      (f := fun s => .next { s with v := loadedRegs x s }) (fun h => by cases h; exact ⟨rfl, rfl⟩) h
  | ldVxK x =>
    change execLdVxK x s = _ at h
    change _ ∧ execLdVxK x _ = _
    unfold execLdVxK at h ⊢
    have hl : lowestKey { s with draws := k } = lowestKey s := rfl
    rw [hl]
    cases hk : lowestKey s <;> rw [hk] at h <;> (cases h; exact ⟨rfl, rfl⟩)
  | ret =>
    change execRet s = _ at h
    change _ ∧ execRet _ = _
    unfold execRet pop at h ⊢
    by_cases hp : 0 < s.sp.val
    · rw [dif_pos hp] at h; cases h; exact ⟨rfl, by rw [dif_pos hp]; rfl⟩
    · rw [dif_neg hp] at h; cases h
  | call nnn =>
    change execCall nnn s = _ at h
    change _ ∧ execCall nnn _ = _
    unfold execCall push at h ⊢
    by_cases hp : s.sp.val < Config.stackCap
    · rw [dif_pos hp] at h; cases h; exact ⟨rfl, by rw [dif_pos hp]; rfl⟩
    · rw [dif_neg hp] at h; cases h
  | _ => cases h; exact ⟨rfl, rfl⟩

/-- The lowest latched key (R134). -/
theorem lowestKey_eq_some {s : State} {k : Fin 16} (h : s.keys[k] = true)
    (hlow : ∀ j : Fin 16, j < k → s.keys[j] = false) : lowestKey s = some k := by
  unfold lowestKey
  rw [List.find?_eq_some_iff_getElem]
  refine ⟨h, k.val, by simp, by simp, ?_⟩
  intro j hj
  have := hlow ⟨j, by omega⟩ hj
  simpa [State.key] using this

/-- No key is latched (R134). -/
theorem lowestKey_eq_none {s : State} (h : ∀ k : Fin 16, s.keys[k] = false) : lowestKey s = none := by
  unfold lowestKey
  rw [List.find?_eq_none]
  intro k _
  simpa [State.key] using h k

/-- The wrapped column and row in arithmetic (R130). -/
@[simp] theorem wrapX_val (px col : Nat) : (wrapX px col).val = (px + col) % 64 := rfl

@[simp] theorem wrapY_val (py row : Nat) : (wrapY py row).val = (py + row) % 32 := rfl

/-- A cell after a toggle (R130). -/
theorem cell_toggleCell (fb : Framebuffer) (x x' : Fin 64) (y y' : Fin 32) :
    cell (toggleCell fb x y) x' y' = if x' = x ∧ y' = y then !cell fb x y else cell fb x' y' := by
  unfold cell toggleCell
  by_cases hy : y' = y
  · subst hy
    by_cases hx : x' = x
    · subst hx; simp
    · have : x.val ≠ x'.val := fun e => hx (Fin.eq_of_val_eq e.symm)
      simp [hx, this]
  · have : y.val ≠ y'.val := fun e => hy (Fin.eq_of_val_eq e.symm)
    simp [hy, this]

/-- The registers V0..Vx, byte by byte (R127). -/
theorem length_blockRegs (x : Reg) (s : State) : (blockRegs x s).length = x.val + 1 := by
  simp [blockRegs]

theorem getElem_blockRegs (x k : Reg) (s : State) (h : k.val < (blockRegs x s).length) :
    (blockRegs x s)[k.val] = s.getV k := by
  simp [blockRegs, State.getV]

/-- The registers after a block load (R128). -/
theorem getElem_loadedRegs (x k : Reg) (s : State) :
    (loadedRegs x s)[k] = if k ≤ x then s.readByte (s.i.toNat + k.val) else s.getV k := by
  simp [loadedRegs, State.base]

end Sys2Proof.Machine
end

