-- ==== Sys2Proof/Laws/PerInstr.lean ====
section
/-!
SUPPORT. The family RoundTrip: for each instruction, decoding its own word gives it back (30_encoding.md rules
R69-R71).
-/
namespace Sys2Proof.Laws.RoundTrip

/-- The word of an instruction decodes to it. -/
def Statement (i : Instr) : Prop := decodeWord (encode i) = .ok i

theorem nop : Statement .nop :=
  rfl

theorem cls : Statement .cls :=
  rfl

theorem ret : Statement .ret :=
  rfl

theorem jp (nnn : Addr) : Statement (.jp nnn) :=
  decodeWord_ok.2 (by simp [encode, decodeRow])

theorem call (nnn : Addr) : Statement (.call nnn) :=
  decodeWord_ok.2 (by simp [encode, decodeRow])

theorem seImm (x : Reg) (nn : Byte) : Statement (.seImm x nn) :=
  decodeWord_ok.2 (by simp [encode, decodeRow])

theorem sneImm (x : Reg) (nn : Byte) : Statement (.sneImm x nn) :=
  decodeWord_ok.2 (by simp [encode, decodeRow])

theorem seReg (x y : Reg) : Statement (.seReg x y) :=
  decodeWord_ok.2 (by simp [encode, decodeRow])

theorem ldImm (x : Reg) (nn : Byte) : Statement (.ldImm x nn) :=
  decodeWord_ok.2 (by simp [encode, decodeRow])

theorem addImm (x : Reg) (nn : Byte) : Statement (.addImm x nn) :=
  decodeWord_ok.2 (by simp [encode, decodeRow])

theorem ldReg (x y : Reg) : Statement (.ldReg x y) :=
  decodeWord_ok.2 (by simp [encode, decodeRow, decodeFamily8])

theorem orReg (x y : Reg) : Statement (.orReg x y) :=
  decodeWord_ok.2 (by simp [encode, decodeRow, decodeFamily8])

theorem andReg (x y : Reg) : Statement (.andReg x y) :=
  decodeWord_ok.2 (by simp [encode, decodeRow, decodeFamily8])

theorem xorReg (x y : Reg) : Statement (.xorReg x y) :=
  decodeWord_ok.2 (by simp [encode, decodeRow, decodeFamily8])

theorem addReg (x y : Reg) : Statement (.addReg x y) :=
  decodeWord_ok.2 (by simp [encode, decodeRow, decodeFamily8])

theorem subReg (x y : Reg) : Statement (.subReg x y) :=
  decodeWord_ok.2 (by simp [encode, decodeRow, decodeFamily8])

theorem shr (x y : Reg) : Statement (.shr x y) :=
  decodeWord_ok.2 (by simp [encode, decodeRow, decodeFamily8])

theorem subnReg (x y : Reg) : Statement (.subnReg x y) :=
  decodeWord_ok.2 (by simp [encode, decodeRow, decodeFamily8])

theorem shl (x y : Reg) : Statement (.shl x y) :=
  decodeWord_ok.2 (by simp [encode, decodeRow, decodeFamily8])

theorem sneReg (x y : Reg) : Statement (.sneReg x y) :=
  decodeWord_ok.2 (by simp [encode, decodeRow])

theorem ldI (nnn : Addr) : Statement (.ldI nnn) :=
  decodeWord_ok.2 (by simp [encode, decodeRow])

theorem jpV0 (nnn : Addr) : Statement (.jpV0 nnn) :=
  decodeWord_ok.2 (by simp [encode, decodeRow])

theorem rnd (x : Reg) (nn : Byte) : Statement (.rnd x nn) :=
  decodeWord_ok.2 (by simp [encode, decodeRow])

theorem drw (x y : Reg) (n : Fin 16) : Statement (.drw x y n) :=
  decodeWord_ok.2 (by simp [encode, decodeRow, nibble])

theorem skp (x : Reg) : Statement (.skp x) :=
  decodeWord_ok.2 (by simp [encode, decodeRow, formXF, decodeFamilyE])

theorem sknp (x : Reg) : Statement (.sknp x) :=
  decodeWord_ok.2 (by simp [encode, decodeRow, formXF, decodeFamilyE])

theorem ldVxDt (x : Reg) : Statement (.ldVxDt x) :=
  decodeWord_ok.2 (by simp [encode, decodeRow, formXF, decodeFamilyF])

theorem ldVxK (x : Reg) : Statement (.ldVxK x) :=
  decodeWord_ok.2 (by simp [encode, decodeRow, formXF, decodeFamilyF])

theorem ldDtVx (x : Reg) : Statement (.ldDtVx x) :=
  decodeWord_ok.2 (by simp [encode, decodeRow, formXF, decodeFamilyF])

theorem ldStVx (x : Reg) : Statement (.ldStVx x) :=
  decodeWord_ok.2 (by simp [encode, decodeRow, formXF, decodeFamilyF])

theorem addI (x : Reg) : Statement (.addI x) :=
  decodeWord_ok.2 (by simp [encode, decodeRow, formXF, decodeFamilyF])

theorem ldF (x : Reg) : Statement (.ldF x) :=
  decodeWord_ok.2 (by simp [encode, decodeRow, formXF, decodeFamilyF])

theorem ldB (x : Reg) : Statement (.ldB x) :=
  decodeWord_ok.2 (by simp [encode, decodeRow, formXF, decodeFamilyF])

theorem ldMemVx (x : Reg) : Statement (.ldMemVx x) :=
  decodeWord_ok.2 (by simp [encode, decodeRow, formXF, decodeFamilyF])

theorem ldVxMem (x : Reg) : Statement (.ldVxMem x) :=
  decodeWord_ok.2 (by simp [encode, decodeRow, formXF, decodeFamilyF])

end Sys2Proof.Laws.RoundTrip
end

