-- ==== Sys2Proof/Tests/Slice0.lean ====
section
/-!
SUPPORT. The model's own tests. Expected results are those of 95_test_vectors.md (the vector's name stands with each
test) or of the encoding column of 30_encoding.md rule R70, never the model's own answer. After them, for each
statement with hypotheses, a concrete witness that meets them.
-/
namespace Sys2Proof.Tests

open Sys2Proof Sys2Proof.Machine

/-! ### Decoding: one word of every row, written out from the encoding column of R70 -/

theorem test_decode_nop : decodeTableWord 16 0b0000000000000000 = some .nop := by decide
theorem test_decode_cls : decodeTableWord 16 0b0000000011100000 = some .cls := by decide
theorem test_decode_ret : decodeTableWord 16 0b0000000011101110 = some .ret := by decide
theorem test_decode_jp : decodeTableWord 16 0b0001001000110100 = some (.jp 0x234) := by decide
theorem test_decode_call : decodeTableWord 16 0b0010001000010000 = some (.call 0x210) := by decide
theorem test_decode_seImm : decodeTableWord 16 0b0011001101000010 = some (.seImm 3 0x42) := by decide
theorem test_decode_sneImm : decodeTableWord 16 0b0100001101000010 = some (.sneImm 3 0x42) := by decide
theorem test_decode_seReg : decodeTableWord 16 0b0101000100100000 = some (.seReg 1 2) := by decide
theorem test_decode_ldImm : decodeTableWord 16 0b0110101000001010 = some (.ldImm 0xA 0x0A) := by decide
theorem test_decode_addImm : decodeTableWord 16 0b0111000000000010 = some (.addImm 0 0x02) := by decide
theorem test_decode_ldReg : decodeTableWord 16 0b1000000000010000 = some (.ldReg 0 1) := by decide
theorem test_decode_orReg : decodeTableWord 16 0b1000000000010001 = some (.orReg 0 1) := by decide
theorem test_decode_andReg : decodeTableWord 16 0b1000000000010010 = some (.andReg 0 1) := by decide
theorem test_decode_xorReg : decodeTableWord 16 0b1000000000010011 = some (.xorReg 0 1) := by decide
theorem test_decode_addReg : decodeTableWord 16 0b1000111100010100 = some (.addReg 0xF 1) := by decide
theorem test_decode_subReg : decodeTableWord 16 0b1000001000110101 = some (.subReg 2 3) := by decide
theorem test_decode_shr : decodeTableWord 16 0b1000000100100110 = some (.shr 1 2) := by decide
theorem test_decode_subnReg : decodeTableWord 16 0b1000000100100111 = some (.subnReg 1 2) := by decide
theorem test_decode_shl : decodeTableWord 16 0b1000000100001110 = some (.shl 1 0) := by decide
theorem test_decode_sneReg : decodeTableWord 16 0b1001000100100000 = some (.sneReg 1 2) := by decide
theorem test_decode_ldI : decodeTableWord 16 0b1010001100000000 = some (.ldI 0x300) := by decide
theorem test_decode_jpV0 : decodeTableWord 16 0b1011111111111111 = some (.jpV0 0xFFF) := by decide
theorem test_decode_rnd : decodeTableWord 16 0b1100000000001111 = some (.rnd 0 0x0F) := by decide
theorem test_decode_drw : decodeTableWord 16 0b1101101010110011 = some (.drw 0xA 0xB 3) := by decide
theorem test_decode_skp : decodeTableWord 16 0b1110010110011110 = some (.skp 5) := by decide
theorem test_decode_sknp : decodeTableWord 16 0b1110010110100001 = some (.sknp 5) := by decide
theorem test_decode_ldVxDt : decodeTableWord 16 0b1111000100000111 = some (.ldVxDt 1) := by decide
theorem test_decode_ldVxK : decodeTableWord 16 0b1111001100001010 = some (.ldVxK 3) := by decide
theorem test_decode_ldDtVx : decodeTableWord 16 0b1111000000010101 = some (.ldDtVx 0) := by decide
theorem test_decode_ldStVx : decodeTableWord 16 0b1111000000011000 = some (.ldStVx 0) := by decide
theorem test_decode_addI : decodeTableWord 16 0b1111001000011110 = some (.addI 2) := by decide
theorem test_decode_ldF : decodeTableWord 16 0b1111000000101001 = some (.ldF 0) := by decide
theorem test_decode_ldB : decodeTableWord 16 0b1111000000110011 = some (.ldB 0) := by decide
theorem test_decode_ldMemVx : decodeTableWord 16 0b1111000101010101 = some (.ldMemVx 1) := by decide
theorem test_decode_ldVxMem : decodeTableWord 16 0b1111001001100101 = some (.ldVxMem 2) := by decide

/-! ### Well-formed words: for each family that has unknown words, one that the check refuses (R79) -/

theorem smoke_family0_refused : wordWellFormed 0x0123 = false := by decide
theorem smoke_family5_refused : wordWellFormed 0x5121 = false := by decide
theorem smoke_family8_refused : wordWellFormed 0x8008 = false := by decide
theorem smoke_family9_refused : wordWellFormed 0x9001 = false := by decide
theorem smoke_familyE_refused : wordWellFormed 0xE000 = false := by decide
theorem smoke_familyF_refused : wordWellFormed 0xF0FF = false := by decide
theorem smoke_keySet_refused : (HostOp.keySet 16 true).wellFormed = false := by decide
theorem smoke_word_accepted : wordWellFormed 0xDAB3 = true := by decide
theorem test_decode_truncated : decodeBytes [0x12] = .error .truncated := by decide

/-! ### One step of a small state -/

/-- The reset state with some registers set. -/
def withRegs (rs : List (Reg × Byte)) : State := rs.foldl (fun s r => s.setV r.1 r.2) State.reset

/-- `withRegs` with I set and bytes stored at 0x300. -/
def withData (rs : List (Reg × Byte)) (i : Word) (bs : List Byte) : State :=
  { withRegs rs with i := i }.writeBytes 0x300 bs

/-- The reset state with keys latched. -/
def withKeys (rs : List (Reg × Byte)) (ks : List (Fin 16)) : State := ks.foldl (fun s k => keySet k true s) (withRegs rs)

/-- The state an outcome hands on, the reset state when it stops. -/
def nextOf : Result → State
  | .next t => t
  | _ => State.reset

/-- What a query says of the state after the step of a word, none when the step stops. -/
def seen {α : Type} (w : Nat) (s : State) (q : State → α) : Option α :=
  match step (s.withFetchWord 16 w) with
  | .next t => some (q t)
  | _ => none

/-- The fault of the step of a word. -/
def faultOf (w : Nat) (s : State) : Option Fault :=
  match step (s.withFetchWord 16 w) with
  | .fault f => some f
  | _ => none

/-- V-DEC-4 -/
theorem test_nop : seen 0x0000 State.reset (·.pc) = some 0x202 := by decide
/-- V-DEC-1 -/
theorem test_unknown : faultOf 0x5121 State.reset = some (.unknownOpcode 0x5121 0x200) := by decide
/-- V-FET-1 -/
theorem test_fetch_last : seen 0x6001 { State.reset with pc := 0xFFE } (fun t => (t.pc, t.getV 0)) = some (0x1000, 1) := by decide
/-- V-FET-4 -/
theorem test_fetch_odd : seen 0x6123 { State.reset with pc := 0x201 } (fun t => (t.pc, t.getV 1)) = some (0x203, 0x23) := by decide
/-- V-JP-2 -/
theorem test_jp : seen 0x1201 State.reset (·.pc) = some 0x201 := by decide
/-- V-CALL-1 -/
theorem test_call : seen 0x2400 { State.reset with pc := 0x300 } (fun t => (t.pc, t.sp, t.stack[0])) = some (0x400, 1, 0x302) := by decide
/-- V-CALL-3 -/
theorem test_call_full : faultOf 0x2400 { State.reset with sp := 16 } = some (.stackOverflow 0x202 0x200) := by decide
/-- V-RET-1 -/
theorem test_ret : seen 0x00EE { State.reset with sp := 1, stack := State.reset.stack.set 0 0x206 } (fun t => (t.pc, t.sp)) = some (0x206, 0) := by decide
/-- V-RET-2 -/
theorem test_ret_empty : faultOf 0x00EE State.reset = some (.stackUnderflow 0x200) := by decide
/-- V-JPV0-2 -/
theorem test_jpV0 : seen 0xBFFF (withRegs [(0, 0xFF)]) (·.pc) = some 0x10FE := by decide
/-- V-SE-1 -/
theorem test_seImm : seen 0x3042 (withRegs [(0, 0x42)]) (·.pc) = some 0x204 := by decide
/-- V-SNE-2 -/
theorem test_sneImm : seen 0x4042 (withRegs [(0, 0x42)]) (·.pc) = some 0x202 := by decide
/-- V-SEXY-2 -/
theorem test_seReg : seen 0x5010 (withRegs [(0, 1), (1, 2)]) (·.pc) = some 0x202 := by decide
/-- V-SNEXY-1 -/
theorem test_sneReg : seen 0x9010 (withRegs [(0, 1), (1, 2)]) (·.pc) = some 0x204 := by decide
/-- V-LD-1 -/
theorem test_ldImm : seen 0x6A5C State.reset (·.getV 0xA) = some 0x5C := by decide
/-- V-ADDI-1 -/
theorem test_addImm : seen 0x7002 (withRegs [(0, 0xFF), (0xF, 7)]) (fun t => (t.getV 0, t.getV 0xF)) = some (0x01, 7) := by decide
/-- V-MOV-1 -/
theorem test_ldReg : seen 0x8010 (withRegs [(1, 0x99)]) (·.getV 0) = some 0x99 := by decide
/-- V-OR-1 -/
theorem test_orReg : seen 0x8011 (withRegs [(0, 0xF0), (1, 0x0F), (0xF, 5)]) (fun t => (t.getV 0, t.getV 0xF)) = some (0xFF, 5) := by decide
/-- V-AND-1 -/
theorem test_andReg : seen 0x8012 (withRegs [(0, 0xF0), (1, 0x3C)]) (·.getV 0) = some 0x30 := by decide
/-- V-XOR-1 -/
theorem test_xorReg : seen 0x8013 (withRegs [(0, 0xFF), (1, 0x0F)]) (·.getV 0) = some 0xF0 := by decide
/-- V-ADD-4 -/
theorem test_addReg : seen 0x8F14 (withRegs [(0xF, 0xFF), (1, 1)]) (·.getV 0xF) = some 1 := by decide
/-- V-ADD-5 -/
theorem test_addReg_y : seen 0x80F4 (withRegs [(0, 5), (0xF, 3)]) (fun t => (t.getV 0, t.getV 0xF)) = some (8, 0) := by decide
/-- S4 -/
theorem test_subReg : seen 0x8015 (withRegs [(0, 0), (1, 1)]) (fun t => (t.getV 0, t.getV 0xF)) = some (0xFF, 0) := by decide
/-- S5 -/
theorem test_subReg_equal : seen 0x8015 (withRegs [(0, 10), (1, 10)]) (fun t => (t.getV 0, t.getV 0xF)) = some (0, 1) := by decide
/-- V-SHR-5 -/
theorem test_shr : seen 0x8126 (withRegs [(1, 5), (2, 0xFF)]) (fun t => (t.getV 1, t.getV 0xF)) = some (2, 1) := by decide
/-- V-SUBN-2 -/
theorem test_subnReg : seen 0x8017 (withRegs [(0, 5), (1, 3)]) (fun t => (t.getV 0, t.getV 0xF)) = some (0xFE, 0) := by decide
/-- V-SHL-1 -/
theorem test_shl : seen 0x800E (withRegs [(0, 0x81)]) (fun t => (t.getV 0, t.getV 0xF)) = some (2, 1) := by decide
/-- V-RND-1 -/
theorem test_rnd_draw : (nextOf (stepWith 0xAB (State.reset.withFetchWord 16 0xC00F))).getV 0 = 0x0B := by decide
/-- V-RND-2 -/
theorem test_rnd_zero : (seen 0xC300 State.reset (·.pc)) = some 0x202 := by decide
/-- V-LDI-1 -/
theorem test_ldI : seen 0xA300 State.reset (·.i) = some 0x0300 := by decide
/-- V-ADDIX-2 -/
theorem test_addI : seen 0xF01E { withRegs [(0, 2)] with i := 0xFFFF } (fun t => (t.i, t.getV 0xF)) = some (0x0001, 0) := by decide
/-- V-FNT-3 -/
theorem test_ldF : seen 0xF029 (withRegs [(0, 0xFF)]) (·.i) = some 0x04FB := by decide
/-- S1 -/
theorem test_ldB : seen 0xF033 { withRegs [(0, 123)] with i := 69 } (fun t => (t.readByte 69, t.readByte 70, t.readByte 71)) = some (1, 2, 3) := by decide
/-- V-BCD-6 -/
theorem test_ldB_out : faultOf 0xF033 { withRegs [(0, 1)] with i := 0x1005 } = some (.addressOutOfRange 0x1005 0x200) := by decide
/-- V-ST-1 -/
theorem test_ldMemVx : seen 0xF155 (withData [(0, 1), (1, 2)] 0x300 []) (fun t => (t.readByte 0x300, t.readByte 0x301, t.i)) = some (1, 2, 0x300) := by decide
/-- V-ST-3 -/
theorem test_ldMemVx_out : faultOf 0xF155 { State.reset with i := 0xFFF } = some (.addressOutOfRange 0x1000 0x200) := by decide
/-- V-LDM-1 -/
theorem test_ldVxMem : seen 0xF265 (withData [] 0x300 [1, 2, 3]) (fun t => (t.getV 0, t.getV 1, t.getV 2)) = some (1, 2, 3) := by decide
/-- V-LDM-2, default FONT -/
theorem test_ldVxMem_font : seen 0xFF65 State.reset (fun t => (t.getV 5, t.getV 0xF)) = some (0x20, 0xF0) := by decide
/-- V-CLS-1 -/
theorem test_cls : seen 0x00E0 { withRegs [(0xF, 3)] with fb := toggleCell clearFb 63 31 } (fun t => (cell t.fb 63 31, t.getV 0xF)) = some (false, 3) := by decide
/-- S7 -/
theorem test_drw_plus : seen 0xD013 (withData [(0, 10), (1, 10)] 0x300 [0x40, 0xE0, 0x40]) (fun t => (cell t.fb 11 10, cell t.fb 10 10, cell t.fb 12 11, cell t.fb 11 12)) = some (true, false, true, true) := by decide
/-- V-DRW-1 -/
theorem test_drw_wrap : seen 0xD011 (withData [(0, 62), (1, 31)] 0x300 [0xFF]) (fun t => (cell t.fb 63 31, cell t.fb 5 31, cell t.fb 6 31)) = some (true, true, false) := by decide
/-- V-SKP-1 -/
theorem test_skp : seen 0xE59E (withKeys [(5, 3)] [3]) (·.pc) = some 0x204 := by decide
/-- V-SKP-3 -/
theorem test_skp_bad : faultOf 0xE09E (withRegs [(0, 0x10)]) = some (.invalidKeyIndex 0x10 0x200) := by decide
/-- V-SKNP-2 -/
theorem test_sknp : seen 0xE5A1 (withKeys [(5, 3)] [3]) (·.pc) = some 0x202 := by decide
/-- V-KEY-1 -/
theorem test_ldVxK : seen 0xF30A (withKeys [] [7, 3]) (fun t => (t.getV 3, t.pc)) = some (3, 0x202) := by decide
/-- V-KEY-2 -/
theorem test_ldVxK_wait : seen 0xF30A (withRegs [(3, 9)]) (fun t => (t.getV 3, t.pc)) = some (9, 0x200) := by decide
/-- V-DT-1 -/
theorem test_ldVxDt : seen 0xF107 { State.reset with dt := 0x2A } (fun t => (t.getV 1, t.dt)) = some (0x2A, 0x2A) := by decide
/-- V-DT-2 -/
theorem test_ldDtVx : seen 0xF015 (withRegs [(0, 3)]) (·.dt) = some 3 := by decide
/-- V-ST-T -/
theorem test_ldStVx : seen 0xF018 (withRegs [(0, 0x10)]) (·.st) = some 0x10 := by decide

/-! ### Fetch faults and host operations -/

/-- A font for the host operations: any 80 bytes. -/
def someFont : Vector Byte Config.fontBytes := Vector.replicate Config.fontBytes 0xAA

/-- V-FET-3 -/
theorem test_fetch_out : step { State.reset with pc := 0xFFF } = .fault (.addressOutOfRange 0x1000 0xFFF) := by rfl
/-- V-TICK-2 -/
theorem test_tick : (tick { State.reset with dt := 5, st := 1 }).dt = 4 ∧ (tick { State.reset with dt := 5, st := 1 }).st = 0 ∧
    toneStop { State.reset with dt := 5, st := 1 } = true := by decide
/-- V-TICK-1: floored at 0 -/
theorem test_tick_floor : (tick State.reset).dt = 0 ∧ toneStop State.reset = false := by decide
/-- V-LOAD-3 -/
theorem test_load : (loadImage [0x12, 0x00] { withRegs [(0, 7)] with pc := 0x345 }).pc = 0x200 ∧
    (loadImage [0x12, 0x00] (withRegs [(0, 7)])).readByte 0x200 = 0x12 ∧
    (loadImage [0x12, 0x00] (withRegs [(0, 7)])).getV 0 = 7 := by decide
/-- R46: the first and the last glyph of the default font -/
theorem test_reset_font : State.reset.readByte 0x000 = 0xF0 ∧ State.reset.readByte 0x04F = 0x80 ∧
    State.reset.readByte 0x050 = 0 := by decide

/-! ### Witnesses: the hypotheses of each statement can be met together -/

/-- An image that does not fit makes the load fault. -/
theorem load_too_long (image : List Byte) (h : ¬ image.length ≤ Config.maxRom) :
    ∃ f, (HostOp.load image).apply someFont State.reset = .fault f := ⟨_, if_neg h⟩

/-- A step that runs: `LD V0, 0x01` in the last two bytes of memory. -/
def lastWord : State := State.withFetchWord { State.reset with pc := 0xFFE } 16 0x6001

theorem witness_EncodeDecode :
    ∃ w i, decodeWord w = .ok i :=
  ⟨0xF165, _, rfl⟩
theorem witness_DecodesExactlyTheTable :
    ∃ w i, decodeWord w = .ok i ∧ ∃ r ∈ opcodeTable, ∃ q ∈ opcodeTable, r.hits w = true ∧ q.hits w = true :=
  ⟨0x0000, .nop, rfl, ⟨1, 0x0000, 0xFFFF⟩, by decide, ⟨1, 0x0000, 0xFFFF⟩, by decide, by decide, by decide⟩
theorem witness_StepRunsDecoded :
    lastWord.pc.toNat ≤ 0xFFE ∧ decodeBytes [lastWord.readByte lastWord.pc.toNat, lastWord.readByte (lastWord.pc.toNat + 1)] = .ok (.ldImm 0 1, []) :=
  by decide
theorem witness_FetchReadsBigEndian :
    ({ State.reset with pc := 0xFFE } : State).pc.toNat ≤ 0xFFE ∧ ({ State.reset with pc := 0x201 } : State).pc.toNat ≤ 0xFFE :=
  by decide
theorem witness_FetchOutOfRangeFaults :
    0xFFF < ({ State.reset with pc := 0xFFF } : State).pc.toNat + 1 :=
  by decide
theorem witness_UnknownOpcodeFaults :
    (State.reset.withFetchWord 16 0x00EF).pc.toNat ≤ 0xFFE ∧ wordWellFormed (State.reset.withFetchWord 16 0x00EF).fetchWord = false :=
  by decide
theorem witness_UnknownWordsListed :
    (State.reset.withFetchWord 16 0x0FFF).pc.toNat ≤ 0xFFE ∧ decodeWord (State.reset.withFetchWord 16 0x0FFF).fetchWord = .error (.unknownOpcode (State.reset.withFetchWord 16 0x0FFF).fetchWord) :=
  by decide
theorem witness_FaultValuesOfOperations_step :
    ∃ f, (HostOp.step 0xAB).apply someFont (State.reset.withFetchWord 16 0x00EE) = .fault f :=
  ⟨_, rfl⟩
theorem witness_FaultValuesOfOperations_load :
    ∃ f, (HostOp.load (List.replicate 3585 0)).apply someFont State.reset = .fault f :=
  load_too_long _ (by rw [List.length_replicate]; decide)
theorem witness_FaultLeavesNoTrace :
    ∃ f, (HostOp.step 0xAB).apply someFont { State.reset with pc := 0xFFF } = .fault f :=
  ⟨_, rfl⟩
theorem witness_FaultKindsByInstruction_call :
    ∃ f, exec (.call 0) { State.reset with sp := 16 } = .fault f :=
  ⟨_, rfl⟩
theorem witness_FaultKindsByInstruction_ret :
    ∃ f, exec .ret State.reset = .fault f :=
  ⟨_, rfl⟩
theorem witness_FaultKindsByInstruction_drw :
    ∃ f, exec (.drw 0 0 3) { State.reset with i := 0xFFE } = .fault f :=
  ⟨_, rfl⟩
theorem witness_FaultKindsByInstruction_ldB :
    ∃ f, exec (.ldB 0) { State.reset with i := 0xFFE } = .fault f :=
  ⟨_, rfl⟩
theorem witness_FaultKindsByInstruction_ldMemVx :
    ∃ f, exec (.ldMemVx 1) { State.reset with i := 0xFFF } = .fault f :=
  ⟨_, rfl⟩
theorem witness_FaultKindsByInstruction_ldVxMem :
    ∃ f, exec (.ldVxMem 0xF) { State.reset with i := 0xFF1 } = .fault f :=
  ⟨_, rfl⟩
theorem witness_FaultKindsByInstruction_skp :
    ∃ f, exec (.skp 0) (withRegs [(0, 0x10)]) = .fault f :=
  ⟨_, rfl⟩
theorem witness_FaultKindsByInstruction_sknp :
    ∃ f, exec (.sknp 0) (withRegs [(0, 0x10)]) = .fault f :=
  ⟨_, rfl⟩
theorem witness_FaultKindsByInstruction_unknown :
    ∃ w pc, step (State.reset.withFetchWord 16 0x5121) = .fault (.unknownOpcode w pc) :=
  ⟨_, _, rfl⟩
theorem witness_StepKeepsInvariant :
    Inv lastWord ∧ ∃ t, step lastWord = .next t :=
  ⟨by decide, _, rfl⟩
theorem witness_ScheduleKeepsInvariant :
    Inv lastWord ∧ ∃ t, runSchedule someFont [.tick, .step 0xFF, .keySet 3 true, .load [0x12, 0x00], .step 0, .reset, .fbRead] lastWord = .next t :=
  ⟨by decide, _, rfl⟩
theorem witness_CanonicalMemoryIsUnique :
    ∃ m n : Memory, Memory.wf m = true ∧ Memory.wf n = true ∧ ∀ a, a < 4096 → Memory.read m a = Memory.read n a :=
  ⟨[(0xFFF, 5)], Memory.write [] 0xFFF 5, by decide, by decide, fun _ _ => rfl⟩
theorem witness_StepKeepsTimersAndKeys :
    ∃ t, step ((withRegs [(0, 3)]).withFetchWord 16 0xF015) = .next t ∧ t.dt ≠ ((withRegs [(0, 3)]).withFetchWord 16 0xF015).dt :=
  ⟨_, rfl, by decide⟩
theorem witness_StepKeepsTimersAndKeys_sound :
    ∃ t, step ((withRegs [(0, 3)]).withFetchWord 16 0xF018) = .next t ∧ t.st ≠ ((withRegs [(0, 3)]).withFetchWord 16 0xF018).st :=
  ⟨_, rfl, by decide⟩
theorem witness_StepKeepsTimersAndKeys_keys :
    ∃ t r, (HostOp.keySet 15 true).apply someFont State.reset = .next (t, r) ∧ t.keys ≠ State.reset.keys :=
  ⟨_, _, rfl, by decide⟩
theorem witness_StepKeepsTimersAndKeys_tick :
    ∃ t r, HostOp.tick.apply someFont { State.reset with dt := 1 } = .next (t, r) ∧ t.dt ≠ 1 :=
  ⟨_, _, rfl, by decide⟩
theorem witness_OnlyCallAndRetTouchStack :
    ∃ t, exec (.call 0) State.reset = .next t ∧ t.sp ≠ State.reset.sp :=
  ⟨_, rfl, by decide⟩
theorem witness_OnlyStoresTouchMemory :
    ∃ t, exec (.ldMemVx 0) (withRegs [(0, 9)]) = .next t ∧ t.readByte 0 ≠ (withRegs [(0, 9)]).readByte 0 :=
  ⟨_, rfl, by decide⟩
theorem witness_OnlyStoresTouchMemory_bcd :
    ∃ t, exec (.ldB 0) { withRegs [(0, 9)] with i := 0xFFD } = .next t ∧ t.readByte 0xFFF ≠ ({ withRegs [(0, 9)] with i := 0xFFD } : State).readByte 0xFFF :=
  ⟨_, rfl, by decide⟩
theorem witness_OnlyOwnersTouchIndexAndScreen_index :
    ∃ t, exec (.ldI 0xFFF) State.reset = .next t ∧ t.i ≠ State.reset.i :=
  ⟨_, rfl, by decide⟩
theorem witness_OnlyOwnersTouchIndexAndScreen_screen :
    ∃ t, exec (.drw 0 0 1) State.reset = .next t ∧ cell t.fb 0 0 ≠ cell State.reset.fb 0 0 :=
  ⟨_, rfl, by decide⟩
theorem witness_OnlyFlagWritersTouchVF :
    ∃ t, exec (.addReg 0 1) (withRegs [(0, 0xFF), (1, 1)]) = .next t ∧ t.getV 0xF ≠ (withRegs [(0, 0xFF), (1, 1)]).getV 0xF :=
  ⟨_, rfl, by decide⟩
theorem witness_FlagDependsOnOperandsOnly :
    ∃ (s s' t t' : State), (Instr.subReg 0 1) ∈ [Instr.addReg 0 1, .subReg 0 1, .shr 0 1, .subnReg 0 1, .shl 0 1] ∧ s.getV 0 = s'.getV 0 ∧ s.getV 1 = s'.getV 1 ∧ s.getV 0xF ≠ s'.getV 0xF ∧ exec (.subReg 0 1) s = .next t ∧ exec (.subReg 0 1) s' = .next t' :=
  ⟨withRegs [(0, 5)], withRegs [(0, 5), (0xF, 0xAB)], _, _, by decide, by decide, by decide, by decide, rfl, rfl⟩
theorem witness_PcChangesOnlyByControl_skip :
    ∃ t, exec (.seImm 0 0) State.reset = .next t ∧ t.pc ≠ State.reset.pc :=
  ⟨_, rfl, by decide⟩
theorem witness_PcChangesOnlyByControl_wait :
    ∃ t, exec (.ldVxK 0) State.reset = .next t ∧ t.pc ≠ State.reset.pc :=
  ⟨_, rfl, by decide⟩
theorem witness_PcChangesOnlyByControl_jump :
    ∃ t, exec (.jp 0xFFF) State.reset = .next t ∧ t.pc ≠ State.reset.pc :=
  ⟨_, rfl, by decide⟩
theorem witness_RetPops :
    ∃ k : Fin 16, ({ State.reset with sp := 16 } : State).sp.val = k.val + 1 :=
  ⟨15, rfl⟩
theorem witness_RetPops_empty :
    State.reset.sp.val = 0 :=
  rfl
theorem witness_CallPushes :
    ∃ k : Fin 16, ({ State.reset with sp := 15 } : State).sp.val = k.val :=
  ⟨15, rfl⟩
theorem witness_CallPushes_full :
    ({ State.reset with sp := 16 } : State).sp.val = 16 :=
  rfl
theorem witness_StackIsLifo :
    State.reset.sp.val + (List.replicate 16 (0x202 : Word)).length ≤ 16 ∧ 16 < State.reset.sp.val + (List.replicate 17 (0x202 : Word)).length :=
  by decide
theorem witness_ParkedStateStays :
    (State.reset.withFetchWord 16 0x1200).pc.toNat ≤ 0xFFE ∧ (State.reset.withFetchWord 16 0x1200).fetchWord = 0x1000 ||| (State.reset.withFetchWord 16 0x1200).pc :=
  by decide
theorem witness_AddWithCarry :
    (0xE : Reg) ≠ 0xF :=
  by decide
theorem witness_SubtractWithNotBorrow :
    (0 : Reg) ≠ 0xF :=
  by decide
theorem witness_ShiftsByOne :
    (0xE : Reg) ≠ 0xF :=
  by decide
theorem witness_RandomIsMaskedFreeDraw :
    (0x0B : Byte) &&& 0x0F = 0x0B ∧ ∃ t, execWith 0xAB (.rnd 0 0x0F) State.reset = .next t ∧ t.getV 0 = 0x0B :=
  ⟨by decide, _, rfl, by decide⟩
theorem witness_RandomIsMaskedFreeDraw_other :
    ∃ t, execWith 0xFF (.ldMemVx 0xF) { State.reset with i := 0xFF0 } = .next t :=
  ⟨_, rfl⟩
theorem witness_BcdStoresDigits :
    Memory.wf State.reset.mem = true ∧ ({ State.reset with i := 0xFFD } : State).i.toNat + 2 ≤ 0xFFF ∧ 0xFFF < ({ State.reset with i := 0xFFE } : State).i.toNat + 2 :=
  by decide
theorem witness_StoreBlock :
    Memory.wf State.reset.mem = true ∧ ({ State.reset with i := 0xFF0 } : State).i.toNat + (0xF : Reg).val ≤ 0xFFF ∧ 0xFFF < ({ State.reset with i := 0xFF1 } : State).i.toNat + (0xF : Reg).val :=
  by decide
theorem witness_LoadBlock :
    ({ State.reset with i := 0xFF0 } : State).i.toNat + (0xF : Reg).val ≤ 0xFFF ∧ 0xFFF < ({ State.reset with i := 0xFF1 } : State).i.toNat + (0xF : Reg).val ∧ (3 : Reg) ≤ 3 ∧ (3 : Reg) < 4 :=
  by decide
theorem witness_StoreThenLoadRestores :
    ∃ s t u w : State, Memory.wf s.mem = true ∧ exec (.ldMemVx 1) s = .next t ∧ u.mem = t.mem ∧ u.i = t.i ∧ exec (.ldVxMem 1) u = .next w :=
  ⟨withData [(0, 1), (1, 2)] 0x300 [], _, { State.reset with mem := (nextOf (exec (.ldMemVx 1) (withData [(0, 1), (1, 2)] 0x300 []))).mem, i := 0x300 }, _, by decide, rfl, rfl, rfl, rfl⟩
theorem witness_StoreIsFetchedNext :
    ∃ s t : State, Memory.wf s.mem = true ∧ 1 ≤ (1 : Reg).val ∧ exec (.ldMemVx 1) s = .next t ∧ t.pc = s.i :=
  ⟨{ withRegs [(0, 0x12), (1, 0x34)] with i := 0x200 }, _, by decide, by decide, rfl, rfl⟩
theorem witness_DrawTogglesCoveredCells :
    ((0 : Fin 16).val = 0 ∨ State.reset.i.toNat + (0 : Fin 16).val - 1 ≤ 0xFFF) ∧ ({ State.reset with i := 0xFFE } : State).i.toNat + (2 : Fin 16).val - 1 ≤ 0xFFF ∧ 0 < (3 : Fin 16).val ∧ 0xFFF < ({ State.reset with i := 0xFFE } : State).i.toNat + (3 : Fin 16).val - 1 :=
  by decide
theorem witness_DrawTogglesCoveredCells_covered :
    Covered State.reset 0 0 1 0 0 ∧ ¬ Covered State.reset 0 0 0 0 0 :=
  ⟨⟨0, 0, by decide, by decide, by decide, rfl, rfl⟩, fun ⟨_, _, h, _⟩ => absurd h (Nat.not_lt_zero _)⟩
theorem witness_DrawTwiceRestores :
    ∃ s t u w : State, exec (.drw 0 0 1) s = .next t ∧ u.fb = t.fb ∧ u.i = s.i ∧ (∀ a, u.readByte a = s.readByte a) ∧ u.getV 0 = s.getV 0 ∧ exec (.drw 0 0 1) u = .next w :=
  ⟨State.reset, _, { State.reset with fb := (nextOf (exec (.drw 0 0 1) State.reset)).fb }, _, rfl, rfl, rfl, fun _ => rfl, rfl, rfl⟩
theorem witness_SecondDrawAlwaysCollides :
    ∃ s t u w : State, exec (.drw 0 0 1) s = .next t ∧ u.fb = t.fb ∧ u.i = s.i ∧ (∀ a, u.readByte a = s.readByte a) ∧ u.getV 0 = s.getV 0 ∧ exec (.drw 0 0 1) u = .next w ∧ ∃ row, row < (1 : Fin 16).val ∧ s.readByte (s.i.toNat + row) ≠ 0 :=
  ⟨State.reset, _, { State.reset with fb := (nextOf (exec (.drw 0 0 1) State.reset)).fb }, _, rfl, rfl, rfl, fun _ => rfl, rfl, rfl, 0, by decide, by decide⟩
theorem witness_KeySkips :
    (∃ k : Fin 16, ((withRegs [(0, 0xF)]).getV 0).toNat = k.val) ∧ 15 < ((withRegs [(0, 0x10)]).getV 0).toNat :=
  ⟨⟨15, rfl⟩, by decide⟩
theorem witness_KeyWaitCapturesLowest :
    (∃ k : Fin 16, (withKeys [] [7, 3]).keys[k] = true ∧ ∀ j : Fin 16, j < k → (withKeys [] [7, 3]).keys[j] = false) ∧ ∀ k : Fin 16, State.reset.keys[k] = false :=
  ⟨⟨3, by decide, by decide⟩, by decide⟩
theorem witness_WaitingStepChangesNothing :
    (State.reset.withFetchWord 16 0xF30A).pc.toNat ≤ 0xFFE ∧ decodeWord (State.reset.withFetchWord 16 0xF30A).fetchWord = .ok (.ldVxK 3) ∧ ∀ k : Fin 16, (State.reset.withFetchWord 16 0xF30A).keys[k] = false :=
  by decide
theorem witness_TickCountsDown :
    ∃ t b, HostOp.tick.apply someFont State.reset = .next (t, .toneStop b) :=
  ⟨_, _, rfl⟩
theorem witness_KeySetWritesOneLatch :
    ∃ k : Nat, 15 < k :=
  ⟨16, by decide⟩
theorem witness_LoadWritesImage :
    Memory.wf State.reset.mem = true ∧ (List.replicate 3584 (0xAA : Byte)).length ≤ 3584 ∧ 3584 < (List.replicate 3585 (0xAA : Byte)).length :=
  ⟨rfl, Nat.le_of_eq List.length_replicate, by rw [List.length_replicate]; decide⟩
theorem witness_ConstructionIsReset :
    ∃ font : Vector Byte Config.fontBytes, font.toList = defaultFont :=
  ⟨⟨defaultFont.toArray, rfl⟩, rfl⟩
theorem witness_ScheduleStopsAtFirstFault :
    (∃ t, runSchedule someFont [.tick] State.reset = .next t) ∧ ∃ f, runSchedule someFont [.step 0, .tick] { State.reset with pc := 0xFFF } = .fault f :=
  ⟨⟨_, rfl⟩, _, rfl⟩
theorem witness_SchedulesWithoutStepsAreSafe :
    ∀ op ∈ [HostOp.tick, .keySet 15 true, .load [], .reset, .fbRead], (∀ r, op ≠ .step r) ∧ op.wellFormed = true ∧ ∀ image, op = .load image → image.length ≤ 3584 :=
  by simp [HostOp.wellFormed, Config.numKeys]

end Sys2Proof.Tests
end

/-!
PROOFS. The state family (10_state.md): what one instruction can do to the state, said once as the relation `Effect`,
and the statements about who changes what that follow from it.
-/
namespace Sys2Proof.Machine

/-! ### The families of instructions that share one effect -/

/-- The six conditional skips (R106-R109, R132, R133). -/
def Skips (i : Instr) : Prop :=
  (∃ x nn, i = .seImm x nn ∨ i = .sneImm x nn) ∨ (∃ x y, i = .seReg x y ∨ i = .sneReg x y) ∨
    ∃ x, i = .skp x ∨ i = .sknp x

/-- The instructions that write register `x` and nothing else (R110-R115, R134, R135); Cxnn has its own case. -/
def WritesReg (x : Reg) (i : Instr) : Prop :=
  (∃ nn, i = .ldImm x nn ∨ i = .addImm x nn) ∨
    (∃ y, i = .ldReg x y ∨ i = .orReg x y ∨ i = .andReg x y ∨ i = .xorReg x y) ∨ i = .ldVxDt x ∨ i = .ldVxK x

/-- The five ALU instructions that write register `x` and then the flag (R116-R120). -/
def WritesFlag (x : Reg) (i : Instr) : Prop :=
  ∃ y, i = .addReg x y ∨ i = .subReg x y ∨ i = .shr x y ∨ i = .subnReg x y ∨ i = .shl x y

/-- The three instructions that assign I (R123-R125). -/
def WritesIndex (i : Instr) : Prop := (∃ nnn, i = .ldI nnn) ∨ ∃ x, i = .addI x ∨ i = .ldF x

/-! ### What an instruction can do -/

/-- Every next state an instruction can answer from `s`, with what holds when it answers it. In the cases of a family
the value written is left open. -/
inductive Effect (s : State) : Instr → State → Prop
  | nop : Effect s .nop s
  | clear : Effect s .cls { s with fb := clearFb }
  | ret (k : Fin 16) (hsp : s.sp.val = k.val + 1) :
      Effect s .ret (jumpTo s.stack[k] { s with sp := ⟨k.val, by omega⟩ })
  | call (nnn : Addr) (hsp : s.sp.val < 16) :
      Effect s (.call nnn) (jumpTo (absolute nnn)
        { s with stack := s.stack.set s.sp.val s.pc, sp := ⟨s.sp.val + 1, Nat.succ_lt_succ hsp⟩ })
  | jump (nnn : Addr) : Effect s (.jp nnn) (jumpTo (absolute nnn) s)
  | jumpV0 (nnn : Addr) : Effect s (.jpV0 nnn) (jumpTo (v0Target nnn s) s)
  | skip {i : Instr} (c : Bool) (hi : Skips i) : Effect s i (skipIf c s)
  | wait (x : Reg) (hk : lowestKey s = none) : Effect s (.ldVxK x) (jumpTo s.fetchAddr s)
  | reg {i : Instr} (x : Reg) (b : Byte) (hi : WritesReg x i) : Effect s i (s.setV x b)
  | flag {i : Instr} (x : Reg) (b f : Byte) (hi : WritesFlag x i) : Effect s i (s.setResultFlag x b f)
  | random (x : Reg) (nn : Byte) : Effect s (.rnd x nn) (rndWith s.draw x nn s).countDraw
  | draw (x y : Reg) (n : Fin 16) (hr : inRange s.base n.val = true) :
      Effect s (.drw x y n)
        (s.withBlit (blit (s.getV x).toNat (s.getV y).toNat (Memory.readBlock s.mem s.base n.val) s.fb))
  | index {i : Instr} (a : Word) (hi : WritesIndex i) : Effect s i { s with i := a }
  | delay (x : Reg) : Effect s (.ldDtVx x) { s with dt := s.getV x }
  | sound (x : Reg) : Effect s (.ldStVx x) { s with st := s.getV x }
  | storeDigits (x : Reg) (hr : inRange s.base 3 = true) :
      Effect s (.ldB x) (s.writeBytes s.base (bcdDigits (s.getV x)))
  | storeRegs (x : Reg) (hr : inRange s.base (x.val + 1) = true) :
      Effect s (.ldMemVx x) (s.writeBytes s.base (blockRegs x s))
  | loadRegs (x : Reg) (hr : inRange s.base (x.val + 1) = true) :
      Effect s (.ldVxMem x) { s with v := loadedRegs x s }

/-- SP is at most 16 in every state (R24). -/
theorem sp_le (s : State) : s.sp.val ≤ 16 := Nat.le_of_lt_succ s.sp.isLt

/-- A RET that does not fault had an address to pop (R100, R141). -/
theorem effect_of_execRet {s t : State} (h : execRet s = .next t) : Effect s .ret t := by
  rcases Nat.eq_zero_or_pos s.sp.val with hz | hp
  · simp [execRet, pop_empty hz, raise_eq] at h
  · obtain ⟨k, hk⟩ : ∃ k : Fin 16, s.sp.val = k.val + 1 :=
      ⟨⟨s.sp.val - 1, by have := sp_le s; omega⟩, (Nat.succ_pred_eq_of_pos hp).symm⟩
    simp only [execRet, pop_of_eq hk] at h
    cases h
    exact .ret k hk

/-- A CALL that does not fault had a free slot (R102, R140). -/
theorem effect_of_execCall {nnn : Addr} {s t : State} (h : execCall nnn s = .next t) : Effect s (.call nnn) t := by
  by_cases hsp : s.sp.val < 16
  · simp only [execCall, push_of_lt hsp] at h
    cases h
    exact .call nnn hsp
  · have hfull : s.sp.val = 16 := Nat.le_antisymm (sp_le s) (Nat.le_of_not_lt hsp)
    simp [execCall, push_full hfull, raise_eq] at h

/-- A key operand followed by a skip answers the skip, on some condition, or faults (R132, R133). -/
theorem withKey_skip_next {x : Reg} {s t : State} {f : Bool → Bool}
    (h : withKey x s (fun p => .next (skipIf (f p) s)) = .next t) : ∃ c, t = skipIf c s := by
  rcases withKey_cases x s (fun p => .next (skipIf (f p) s)) with ⟨j, -, hj⟩ | ⟨-, hf⟩
  · rw [hj] at h; cases h; exact ⟨_, rfl⟩
  · rw [hf] at h; cases h

/-- An Fx0A captures the lowest latched key or waits (R134). -/
theorem effect_of_execLdVxK {x : Reg} {s t : State} (h : execLdVxK x s = .next t) : Effect s (.ldVxK x) t := by
  unfold execLdVxK at h
  split at h
  · cases h; exact .reg x _ (by simp [WritesReg])
  · cases h; exact .wait x ‹_›

/-- Everything an instruction can do when it answers a next state: the inversion of `exec`. -/
theorem effect_of_exec {i : Instr} {s t : State} (h : exec i s = .next t) : Effect s i t := by
  cases i with
  | nop => cases h; exact .nop
  | cls => cases h; exact .clear
  | ret => exact effect_of_execRet h
  | call nnn => exact effect_of_execCall h
  | jp nnn => cases h; exact .jump nnn
  | jpV0 nnn => cases h; exact .jumpV0 nnn
  | seImm | sneImm | seReg | sneReg => cases h; exact .skip _ (by simp [Skips])
  | skp x => obtain ⟨c, rfl⟩ := withKey_skip_next (f := id) h; exact .skip c (by simp [Skips])
  | sknp x => obtain ⟨c, rfl⟩ := withKey_skip_next (f := not) h; exact .skip c (by simp [Skips])
  | ldVxK x => exact effect_of_execLdVxK h
  | ldImm x | addImm x | ldReg x | orReg x | andReg x | xorReg x | ldVxDt x =>
    cases h; exact .reg x _ (by simp [WritesReg])
  | addReg x y | subReg x y | shr x y | subnReg x y | shl x y => cases h; exact .flag x _ _ ⟨y, by simp⟩
  | rnd x nn => cases h; exact .random x nn
  | drw x y n =>
    change execDrw x y n s = _ at h
    obtain ⟨hr, h⟩ := guardRange_next h
    cases h
    exact .draw x y n hr
  | ldI | addI | ldF => cases h; exact .index _ (by simp [WritesIndex])
  | ldDtVx x => cases h; exact .delay x
  | ldStVx x => cases h; exact .sound x
  | ldB x =>
    change execLdB x s = _ at h
    obtain ⟨hr, h⟩ := guardRange_next h
    cases h
    exact .storeDigits x hr
  | ldMemVx x =>
    change execLdMemVx x s = _ at h
    obtain ⟨hr, h⟩ := guardRange_next h
    cases h
    exact .storeRegs x hr
  | ldVxMem x =>
    change execLdVxMem x s = _ at h
    obtain ⟨hr, h⟩ := guardRange_next h
    cases h
    exact .loadRegs x hr

/-! ### Who changes what -/

/-- Settles O20: of all effects only those of CALL and RET touch SP or the slots. -/
theorem onlyCallAndRetTouchStack : Obligations.OnlyCallAndRetTouchStack := by
  intro i s t
  refine ⟨sp_le s, fun h hne => ?_⟩
  cases effect_of_exec h with
  | call nnn => exact .inl ⟨nnn, rfl⟩
  | ret => exact .inr rfl
  | _ => simp at hne

/-- An effect that changes I is an assignment to I (R21). -/
theorem Effect.writesIndex {i : Instr} {s t : State} (e : Effect s i t) (hne : t.i ≠ s.i) : WritesIndex i := by
  cases e with
  | index a hi => exact hi
  | _ => simp at hne

/-- An effect that changes the framebuffer is a clear or a draw (R28). -/
theorem Effect.writesScreen {i : Instr} {s t : State} (e : Effect s i t) (hne : t.fb ≠ s.fb) :
    i = .cls ∨ ∃ x y n, i = .drw x y n := by
  cases e with
  | clear => exact .inl rfl
  | draw x y n => exact .inr ⟨x, y, n, rfl⟩
  | _ => simp at hne

/-- Settles O22: by the two lemmas above, of the effect that ran. -/
theorem onlyOwnersTouchIndexAndScreen : Obligations.OnlyOwnersTouchIndexAndScreen := fun _ _ _ h =>
  ⟨(effect_of_exec h).writesIndex, (effect_of_exec h).writesScreen⟩

/-- Settles O25: the three ways an effect moves PC are a skip, a wait and a jump. -/
theorem pcChangesOnlyByControl : Obligations.PcChangesOnlyByControl := by
  intro i s t h hne
  cases effect_of_exec h with
  | skip c hi =>
    cases c with
    | false => simp at hne
    | true => exact .inl ⟨by simp, hi⟩
  | wait x => exact .inr (.inl ⟨rfl, x, rfl⟩)
  | jump nnn => exact .inr (.inr (.inl ⟨nnn, by simp⟩))
  | call nnn => exact .inr (.inr (.inl ⟨nnn, by simp⟩))
  | jumpV0 nnn => exact .inr (.inr (.inl ⟨nnn, by simp⟩))
  | ret => exact .inr (.inr (.inr rfl))
  | _ => simp at hne

/-- A skip changes no register (R91). -/
@[simp] theorem skipIf_getV (s : State) (c : Bool) (r : Reg) : (skipIf c s).getV r = s.getV r := by cases c <;> rfl

/-- A write that changes VF was a write to VF. -/
theorem dest_of_setV_changes_VF {s : State} {x : Reg} {b : Byte} (hne : (s.setV x b).getV VF ≠ s.getV VF) : x = VF :=
  not_imp_comm.1 (fun h => getV_setV_ne s b (Ne.symm h)) hne

/-- A block load that changes VF loads as far as VF (R128). -/
theorem last_of_loadedRegs_changes_VF {s : State} {x : Reg} (hne : (loadedRegs x s)[VF] ≠ s.getV VF) : x = VF := by
  rw [getElem_loadedRegs] at hne
  split at hne
  · exact Fin.last_le_iff.1 ‹_›
  · exact absurd rfl hne

/-- Settles O23: apart from the flag writers, an effect reaches VF only where VF is the register it names. -/
theorem onlyFlagWritersTouchVF : Obligations.OnlyFlagWritersTouchVF := by
  intro i s t h hne
  cases effect_of_exec h with
  | flag x b f hi =>
    obtain ⟨y, hi⟩ := hi
    exact .inl ⟨x, y, hi⟩
  | draw x y n => exact .inr (.inl ⟨x, y, n, rfl⟩)
  | random x nn =>
    obtain rfl := dest_of_setV_changes_VF hne
    exact .inr (.inr (.inl ⟨nn, by simp⟩))
  | reg x b hi =>
    obtain rfl := dest_of_setV_changes_VF hne
    rcases hi with ⟨nn, rfl | rfl⟩ | ⟨y, hi⟩ | rfl | rfl
    · exact .inr (.inr (.inl ⟨nn, by simp⟩))
    · exact .inr (.inr (.inl ⟨nn, by simp⟩))
    · exact .inr (.inr (.inr (.inl ⟨y, hi⟩)))
    · simp
    · simp
  | loadRegs x =>
    obtain rfl := last_of_loadedRegs_changes_VF hne
    simp
  | skip c => exact absurd (skipIf_getV s c VF) hne
  | _ => exact absurd rfl hne

/-! ### The invariant -/

/-- Every live stack slot holds an address after a call: the third clause of `Inv` (R24, R102). -/
def LiveSlots (s : State) : Prop :=
  ∀ k : Fin 16, k.val < s.sp.val → 2 ≤ (s.stack[k]).toNat ∧ (s.stack[k]).toNat ≤ 0x1000

/-- A state with the same stack has the same live slots. -/
theorem LiveSlots.congr {s t : State} (hl : LiveSlots s) (hsp : t.sp = s.sp) (hst : t.stack = s.stack) :
    LiveSlots t := by
  unfold LiveSlots
  rw [hsp, hst]
  exact hl

/-- An absolute address is at most 0xFFF (R74). -/
theorem toNat_absolute_le (nnn : Addr) : (absolute nnn).toNat ≤ 0xFFF := by
  have : nnn.toNat < 4096 := nnn.isLt
  simp [absolute]
  omega

/-- The target of Bnnn is at most 0x10FE (R103). -/
theorem toNat_v0Target_le (nnn : Addr) (s : State) : (v0Target nnn s).toNat ≤ 0x10FE := by
  have hn : nnn.toNat < 4096 := nnn.isLt
  have hv : (s.getV 0).toNat < 256 := (s.getV 0).isLt
  simp [v0Target]
  omega

/-- An effect keeps memory canonical: the only writers store inside memory (log 6). -/
theorem Effect.keeps_wf {i : Instr} {s t : State} (e : Effect s i t) (hm : Memory.wf s.mem = true) :
    Memory.wf t.mem = true := by
  cases e with
  | storeDigits x hr => exact wf_writeBlock _ (end_of_inRange hr (Nat.succ_ne_zero 2)) hm
  | storeRegs x hr => exact wf_writeBlock _ (length_blockRegs x s ▸ end_of_inRange hr (Nat.succ_ne_zero x.val)) hm
  | skip c => rwa [skipIf_mem]
  | _ => exact hm

/-- From PC = A + 2 of a fetched instruction, an effect leaves PC at most 0x10FE (R19). -/
theorem Effect.pc_le {i : Instr} {s t : State} (e : Effect s i t) (h2 : 2 ≤ s.pc.toNat) (hp : s.pc.toNat ≤ 0x1000)
    (hl : LiveSlots s) : t.pc.toNat ≤ 0x10FE := by
  cases e with
  | ret k hsp => exact (hl k (by omega)).2.trans (by decide)
  | call nnn => exact (toNat_absolute_le nnn).trans (by decide)
  | jump nnn => exact (toNat_absolute_le nnn).trans (by decide)
  | jumpV0 nnn => exact toNat_v0Target_le nnn s
  | skip c =>
    cases c with
    | false => exact hp.trans (by decide)
    | true => simp; omega
  | wait x => simp [State.fetchAddr]; omega
  | _ => exact hp.trans (by decide)

/-- The slot a CALL fills holds its return address, and the slots below it are the old ones (R102). -/
theorem LiveSlots.push {s : State} {r pc : Word} (hl : LiveSlots s) (h2 : 2 ≤ r.toNat) (hr : r.toNat ≤ 0x1000)
    (hsp : s.sp.val < 16) :
    LiveSlots { s with pc := pc, stack := s.stack.set s.sp.val r, sp := ⟨s.sp.val + 1, Nat.succ_lt_succ hsp⟩ } := by
  intro k hk
  rcases Nat.lt_succ_iff_lt_or_eq.1 hk with hlt | heq
  · simpa [Nat.ne_of_gt hlt] using hl k hlt
  · simpa [heq] using ⟨h2, hr⟩

/-- From PC = A + 2 of a fetched instruction, an effect keeps the live slots (R24, R102). -/
theorem Effect.keeps_liveSlots {i : Instr} {s t : State} (e : Effect s i t) (h2 : 2 ≤ s.pc.toNat)
    (hp : s.pc.toNat ≤ 0x1000) (hl : LiveSlots s) : LiveSlots t := by
  cases e with
  | ret k hsp => exact fun j hj => hl j (hsp ▸ Nat.lt_succ_of_lt hj)
  | call nnn hsp => exact hl.push h2 hp hsp
  | skip c => exact hl.congr (skipIf_sp s c) (skipIf_stack s c)
  | _ => exact hl

/-- An effect keeps the invariant from the PC = A + 2 of a fetched instruction. -/
theorem Effect.keeps_inv {i : Instr} {s t : State} (e : Effect s i t) (h2 : 2 ≤ s.pc.toNat)
    (hp : s.pc.toNat ≤ 0x1000) (hi : Inv s) : Inv t := by
  obtain ⟨hm, -, hl⟩ := hi
  exact ⟨e.keeps_wf hm, e.pc_le h2 hp hl, e.keeps_liveSlots h2 hp hl⟩

/-- The fetch advance does not wrap (R20, R85). -/
theorem toNat_advance_pc {s : State} (hp : s.pc.toNat ≤ 0xFFE) : s.advance.pc.toNat = s.pc.toNat + 2 := by
  simp
  omega

/-- The fetch advance keeps the invariant. -/
theorem inv_advance {s : State} (hp : s.pc.toNat ≤ 0xFFE) (hi : Inv s) : Inv s.advance := by
  obtain ⟨hm, -, hl⟩ := hi
  exact ⟨hm, by rw [toNat_advance_pc hp]; omega, hl⟩

/-- Settles O15: the step ran one effect on the advanced state, whose PC is between 2 and 0x1000. -/
theorem stepKeepsInvariant : Obligations.StepKeepsInvariant := by
  intro s t hi h
  obtain ⟨hp, i, -, h⟩ := step_next h
  have hpc := toNat_advance_pc hp
  exact (effect_of_exec h).keeps_inv (by omega) (by omega) (inv_advance hp hi)

/-! ### Reset -/

/-- A font fits into memory at its base (R45, R47). -/
theorem font_fits (font : Vector Byte Config.fontBytes) :
    Config.fontBase + font.toList.length ≤ Config.memSize := by
  rw [Vector.length_toList]
  decide

/-- Settles O16: a font is stored inside memory, PC is 0x200 and no slot is live. -/
theorem resetMeetsInvariant : Obligations.ResetMeetsInvariant :=
  have hpc : State.reset.pc.toNat ≤ 0x10FE := by decide
  have hl : LiveSlots State.reset := fun k hk => absurd hk k.val.not_lt_zero
  ⟨⟨wf_reset, hpc, hl⟩, fun font => ⟨wf_writeBlock _ (font_fits font) wf_reset, hpc, hl⟩⟩

/-- The reset memory holds the font at 0x000-0x04F (R44, R45). -/
theorem readByte_resetWith_font (font : Vector Byte Config.fontBytes) {a : Nat} (h : a < 80) :
    (State.resetWith font).readByte a = font[a] := by
  have hlen : a < font.toList.length := font.length_toList.symm ▸ h
  have hin := read_writeBlock_in font.toList wf_reset (font_fits font) hlen
  simpa [State.readByte, State.resetWith] using hin

/-- The reset memory is 0 above the font (R44). -/
theorem readByte_resetWith_zero (font : Vector Byte Config.fontBytes) {a : Nat} (h : 80 ≤ a) :
    (State.resetWith font).readByte a = 0 := by
  have hlen : Config.fontBase + font.toList.length ≤ a := by rwa [Vector.length_toList]
  calc (State.resetWith font).readByte a = unlisted a := read_writeBlock_out _ _ _ (.inr hlen)
    _ = 0 := if_neg (Nat.not_lt.2 h)

/-- Settles O56: every field is that of `State.reset` but memory, which holds the font. -/
theorem resetRestoresEverything : Obligations.ResetRestoresEverything := by
  intro font s
  refine ⟨_, rfl, ?_, rfl, rfl, rfl, ?_, rfl, rfl, ?_, ?_, ?_, ?_⟩
  · intro r; simp [State.getV, State.resetWith, State.reset]
  · intro k; simp [State.resetWith, State.reset]
  · intro k; simp [State.resetWith, State.reset]
  · intro cx cy; simp [cell, State.resetWith, State.reset]
  · intro a h; exact readByte_resetWith_font font h
  · intro a h _; exact readByte_resetWith_zero font h

end Sys2Proof.Machine

/-!
PROOFS. The memory family (20_memory.md): a canonical memory is determined by its reads, who writes memory and where,
and what the fetch and the host's load make of stored bytes.
-/
namespace Sys2Proof.Machine

/-! ### The canonical form is unique -/

/-- A canonical list with a first cell: the clauses of `Memory.wfFrom` one by one. -/
theorem wfFrom_cons_iff {lo k : Nat} {b : Byte} {m : Memory} :
    Memory.wfFrom lo ((k, b) :: m) = true ↔
      lo ≤ k ∧ k < Config.memSize ∧ b ≠ unlisted k ∧ Memory.wfFrom (k + 1) m = true := by
  simp [Memory.wfFrom, and_assoc]

/-- At the address of its first cell a canonical memory reads differently from one whose cells all lie above it: the
first lists no reset byte, the second lists nothing there. -/
theorem read_head_ne {lo lo' k : Nat} {b : Byte} {m n : Memory} (hm : Memory.wfFrom lo ((k, b) :: m) = true)
    (hn : Memory.wfFrom lo' n = true) (hk : k < lo') : Memory.read ((k, b) :: m) k ≠ Memory.read n k := by
  obtain ⟨-, -, hb, -⟩ := wfFrom_cons_iff.1 hm
  rw [read_of_lt_wfFrom hn hk]
  simpa [Memory.read] using hb

/-- The tails of two canonical memories with the same first cell read alike where the memories do. -/
theorem read_tail_eq {k a : Nat} {b : Byte} {m n : Memory} (hm : Memory.wfFrom (k + 1) m = true)
    (hn : Memory.wfFrom (k + 1) n = true) (h : Memory.read ((k, b) :: m) a = Memory.read ((k, b) :: n) a) :
    Memory.read m a = Memory.read n a := by
  by_cases ha : a = k
  · subst ha
    rw [read_of_lt_wfFrom hm a.lt_succ_self, read_of_lt_wfFrom hn a.lt_succ_self]
  · simpa [Memory.read, ha] using h

/-- Canonical memories that read alike are equal: their first cells have the same address, since neither can lie below
the other, hence the same byte, and the tails read alike. -/
theorem eq_of_read_eq {lo : Nat} : ∀ {m n : Memory}, Memory.wfFrom lo m = true → Memory.wfFrom lo n = true →
    (∀ a, a < Config.memSize → Memory.read m a = Memory.read n a) → m = n
  | [], [], _, _, _ => rfl
  | [], (k, _) :: _, _, hn, h => by
    obtain ⟨-, hk, -, -⟩ := wfFrom_cons_iff.1 hn
    exact absurd (h k hk).symm (read_head_ne hn (lo' := k + 1) rfl k.lt_succ_self)
  | (k, _) :: _, [], hm, _, h => by
    obtain ⟨-, hk, -, -⟩ := wfFrom_cons_iff.1 hm
    exact absurd (h k hk) (read_head_ne hm (lo' := k + 1) rfl k.lt_succ_self)
  | (k, b) :: m, (j, c) :: n, hm, hn, h => by
    obtain ⟨-, hk, hb, htm⟩ := wfFrom_cons_iff.1 hm
    obtain ⟨-, hj, hc, htn⟩ := wfFrom_cons_iff.1 hn
    rcases Nat.lt_trichotomy k j with hlt | rfl | hlt
    · exact absurd (h k hk) (read_head_ne hm (wfFrom_cons_iff.2 ⟨Nat.le_refl j, hj, hc, htn⟩) hlt)
    · obtain rfl : b = c := by simpa [Memory.read] using h k hk
      rw [eq_of_read_eq htm htn fun a ha => read_tail_eq htm htn (h a ha)]
    · exact absurd (h j hj).symm (read_head_ne hn (wfFrom_cons_iff.2 ⟨Nat.le_refl k, hk, hb, htm⟩) hlt)

/-- Settles O18: uniqueness of canonical lists, from address 0. -/
theorem canonicalMemoryIsUnique : Obligations.CanonicalMemoryIsUnique := fun _ _ => eq_of_read_eq

/-! ### The bytes of a state after a store -/

/-- Each byte of a stored block reads back from the state (R58). -/
theorem readByte_writeBytes_in {s : State} {base k : Nat} {bs : List Byte} (hm : Memory.wf s.mem = true)
    (hb : base + bs.length ≤ Config.memSize) (hk : k < bs.length) :
    (s.writeBytes base bs).readByte (base + k) = bs[k] := read_writeBlock_in bs hm hb hk

/-- A store keeps every byte outside its block (R58). -/
theorem otherBytesKept_writeBytes (s : State) (base : Nat) (bs : List Byte) :
    OtherBytesKept base bs.length s (s.writeBytes base bs) := fun _ h => read_writeBlock_out bs s.mem base h

/-- A byte that a store changes lies in the stored block (R58). -/
theorem mem_block_of_writeBytes_changes {s : State} {base a : Nat} {bs : List Byte}
    (hne : (s.writeBytes base bs).readByte a ≠ s.readByte a) : base ≤ a ∧ a < base + bs.length := by
  by_contra hout
  exact hne (otherBytesKept_writeBytes s base bs a (by omega))

/-- A skip changes no byte (R91). -/
@[simp] theorem skipIf_readByte (s : State) (c : Bool) (a : Nat) : (skipIf c s).readByte a = s.readByte a := by
  cases c <;> rfl

/-- Settles O21: of all effects only the two stores reach memory, and each changes bytes of its own block only. -/
theorem onlyStoresTouchMemory : Obligations.OnlyStoresTouchMemory := by
  intro i s t a h hne
  cases effect_of_exec h with
  | storeDigits x =>
    obtain ⟨hlo, hhi⟩ := mem_block_of_writeBytes_changes hne
    exact .inl ⟨x, rfl, hlo, Nat.le_of_lt_succ hhi⟩
  | storeRegs x =>
    obtain ⟨hlo, hhi⟩ := mem_block_of_writeBytes_changes hne
    rw [length_blockRegs] at hhi
    exact .inr ⟨x, rfl, hlo, Nat.le_of_lt_succ hhi⟩
  | skip c => exact absurd (skipIf_readByte s c a) hne
  | _ => exact absurd rfl hne

/-! ### A stored word is fetched -/

/-- The byte an Fx55 stores at offset `k` is register `k` (R127). -/
theorem readByte_writeBytes_blockRegs {x k : Reg} {s : State} (hm : Memory.wf s.mem = true)
    (hr : inRange s.base (x.val + 1) = true) (hk : k ≤ x) :
    (s.writeBytes s.base (blockRegs x s)).readByte (s.base + k.val) = s.getV k := by
  have hlen := length_blockRegs x s
  have hk' : k.val < (blockRegs x s).length := hlen ▸ Nat.lt_succ_of_le hk
  rw [readByte_writeBytes_in hm (hlen ▸ end_of_inRange hr x.val.succ_ne_zero) hk', getElem_blockRegs]

/-- An Fx55 that answers a next state stored V0 to Vx from I, inside memory (R52, R127). -/
theorem exec_ldMemVx_next {x : Reg} {s t : State} (h : exec (.ldMemVx x) s = .next t) :
    inRange s.base (x.val + 1) = true ∧ t = s.writeBytes s.base (blockRegs x s) := by
  obtain ⟨hr, ht⟩ := guardRange_next (show execLdMemVx x s = .next t from h)
  cases ht
  exact ⟨hr, rfl⟩

/-- Settles O44: the block ends inside memory, so the fetch at I is in range, and its two bytes are V0 and V1. -/
theorem storeIsFetchedNext : Obligations.StoreIsFetchedNext := by
  intro x s t hm hx h hpc
  obtain ⟨hr, rfl⟩ := exec_ldMemVx_next h
  have hbase : (s.writeBytes s.base (blockRegs x s)).pc.toNat = s.base := congrArg BitVec.toNat hpc
  have hend : s.base + (x.val + 1) ≤ 4096 := end_of_inRange hr x.val.succ_ne_zero
  have h0 := readByte_writeBytes_blockRegs (k := 0) hm hr (Fin.zero_le x)
  have h1 := readByte_writeBytes_blockRegs (k := 1) hm hr hx
  have hword : (s.writeBytes s.base (blockRegs x s)).fetchWord = wordOfBytes (s.getV 0) (s.getV 1) := by
    rw [State.fetchWord, hbase]
    exact congrArg₂ wordOfBytes h0 h1
  rw [fetch_of_le (by omega), hword]
  rfl

/-! ### The load of an image -/

/-- A load changes PC and memory only (R66). -/
theorem frame_loadImage (image : List Byte) (s : State) : Frame [.pc, .memory] s (loadImage image s) := by
  intro p hp
  cases p with
  | pc | memory => simp at hp
  | regs => exact fun _ => rfl
  | stack => exact ⟨rfl, rfl⟩
  | _ => rfl

/-- Settles O55: an image that fits ends inside memory, so the store at 0x200 reads back; a longer one is the fault. -/
theorem loadWritesImage : Obligations.LoadWritesImage := by
  intro font image s hm
  constructor
  · intro hlen
    have hfit : Config.progBase + image.length ≤ Config.memSize := Nat.add_le_of_le_sub' (by decide) hlen
    exact ⟨loadImage image s, if_pos hlen, rfl, fun k hk => readByte_writeBytes_in hm hfit hk,
      otherBytesKept_writeBytes _ _ image, frame_loadImage image s⟩
  · intro hlen
    have hfault : (HostOp.load image).apply font s = .fault (.romTooLarge image.length) :=
      if_neg (Nat.not_le.2 hlen)
    exact ⟨hfault, by simp [HostOp.stateAfter, hfault]⟩

end Sys2Proof.Machine

/-!
PROOFS. The encoding family (30_encoding.md): the decoder's dispatch said once as the relation `Dispatched`, the words
that no row answers, and the decoder held against the encoder, the table of R70 and the list of R79.
-/
namespace Sys2Proof

/-! ### The fields of a word, as numbers and rebuilt (R68, R69) -/

@[simp] theorem toNat_opField (w : Word) : (opField w).toNat = w.toNat / 4096 := by
  simp [opField, Nat.shiftRight_eq_div_pow]
  omega

@[simp] theorem toNat_nBits (w : Word) : (nBits w).toNat = w.toNat % 16 := by
  simp [nBits]

@[simp] theorem toNat_nnField (w : Word) : (nnField w).toNat = w.toNat % 256 := by
  simp [nnField]

@[simp] theorem toNat_nnnField (w : Word) : (nnnField w).toNat = w.toNat % 4096 := by
  simp [nnnField]

@[simp] theorem val_xField (w : Word) : (xField w).val = w.toNat / 256 % 16 := by
  simp [xField, Nat.shiftRight_eq_div_pow]

@[simp] theorem val_yField (w : Word) : (yField w).val = w.toNat / 16 % 16 := by
  simp [yField, Nat.shiftRight_eq_div_pow]

theorem formNNN_fields {w : Word} {op : BitVec 4} (hop : opField w = op) : formNNN op (nnnField w) = w := by
  subst hop
  apply BitVec.eq_of_toNat_eq
  simp [formNNN]
  omega

theorem formXNN_fields {w : Word} {op : BitVec 4} {nn : Byte} (hop : opField w = op) (hnn : nnField w = nn) :
    formXNN op (xField w) nn = w := by
  subst hop hnn
  apply BitVec.eq_of_toNat_eq
  simp [formXNN]
  omega

theorem formXYN_fields {w : Word} {op n : BitVec 4} (hop : opField w = op) (hn : nBits w = n) :
    formXYN op (xField w) (yField w) n = w := by
  subst hop hn
  apply BitVec.eq_of_toNat_eq
  simp [formXYN]
  omega

/-! ### What the decoder answers (R71) -/

theorem decodeFamily0_eq_none {w : Word} : decodeFamily0 w = none ↔ w ∉ [0x0000, 0x00E0, 0x00EE] := by
  simp [decodeFamily0, ite_eq_iff]

theorem decodeFamily8_eq_none {w : Word} :
    decodeFamily8 w = none ↔ nBits w ∉ [0x0, 0x1, 0x2, 0x3, 0x4, 0x5, 0x6, 0x7, 0xE] := by
  simp [decodeFamily8, ite_eq_iff]

theorem decodeFamilyE_eq_none {w : Word} : decodeFamilyE w = none ↔ nnField w ∉ [0x9E, 0xA1] := by
  simp [decodeFamilyE, ite_eq_iff]

theorem decodeFamilyF_eq_none {w : Word} :
    decodeFamilyF w = none ↔ nnField w ∉ [0x07, 0x0A, 0x15, 0x18, 0x1E, 0x29, 0x33, 0x55, 0x65] := by
  simp [decodeFamilyF, ite_eq_iff]

/-- The arm of the decoder's dispatch that a word takes, and its answer: one case for each family nibble. -/
inductive Dispatched (w : Word) : Option Instr → Prop
  | family0 (hop : opField w = 0x0) : Dispatched w (decodeFamily0 w)
  | jp (hop : opField w = 0x1) : Dispatched w (some (.jp (nnnField w)))
  | call (hop : opField w = 0x2) : Dispatched w (some (.call (nnnField w)))
  | seImm (hop : opField w = 0x3) : Dispatched w (some (.seImm (xField w) (nnField w)))
  | sneImm (hop : opField w = 0x4) : Dispatched w (some (.sneImm (xField w) (nnField w)))
  | family5 (hop : opField w = 0x5) :
      Dispatched w (if nBits w = 0x0 then some (.seReg (xField w) (yField w)) else none)
  | ldImm (hop : opField w = 0x6) : Dispatched w (some (.ldImm (xField w) (nnField w)))
  | addImm (hop : opField w = 0x7) : Dispatched w (some (.addImm (xField w) (nnField w)))
  | family8 (hop : opField w = 0x8) : Dispatched w (decodeFamily8 w)
  | family9 (hop : opField w = 0x9) :
      Dispatched w (if nBits w = 0x0 then some (.sneReg (xField w) (yField w)) else none)
  | ldI (hop : opField w = 0xA) : Dispatched w (some (.ldI (nnnField w)))
  | jpV0 (hop : opField w = 0xB) : Dispatched w (some (.jpV0 (nnnField w)))
  | rnd (hop : opField w = 0xC) : Dispatched w (some (.rnd (xField w) (nnField w)))
  | drw (hop : opField w = 0xD) : Dispatched w (some (.drw (xField w) (yField w) (nField w)))
  | familyE (hop : opField w = 0xE) : Dispatched w (decodeFamilyE w)
  | familyF (hop : opField w = 0xF) : Dispatched w (decodeFamilyF w)

theorem dispatched_decodeRow (w : Word) : Dispatched w (decodeRow w) := by
  have hops : ∀ op : BitVec 4,
      op ∈ [0x0#4, 0x1, 0x2, 0x3, 0x4, 0x5, 0x6, 0x7, 0x8, 0x9, 0xA, 0xB, 0xC, 0xD, 0xE, 0xF] := by decide
  have hop := hops (opField w)
  simp only [List.mem_cons, List.not_mem_nil, or_false] at hop
  rcases hop with h | h | h | h | h | h | h | h | h | h | h | h | h | h | h | h <;>
    simp only [decodeRow, h, BitVec.reduceEq, if_true, if_false]
  exacts [.family0 h, .jp h, .call h, .seImm h, .sneImm h, .family5 h, .ldImm h, .addImm h, .family8 h, .family9 h,
    .ldI h, .jpV0 h, .rnd h, .drw h, .familyE h, .familyF h]

/-- The words that match no row, by their fields (R79). -/
theorem decodeRow_eq_none_iff {w : Word} : decodeRow w = none ↔
    (opField w = 0x0 ∧ w ∉ [0x0000, 0x00E0, 0x00EE]) ∨
    (opField w = 0x5 ∧ nBits w ≠ 0x0) ∨
    (opField w = 0x9 ∧ nBits w ≠ 0x0) ∨
    (opField w = 0x8 ∧ nBits w ∉ [0x0, 0x1, 0x2, 0x3, 0x4, 0x5, 0x6, 0x7, 0xE]) ∨
    (opField w = 0xE ∧ nnField w ∉ [0x9E, 0xA1]) ∨
    (opField w = 0xF ∧ nnField w ∉ [0x07, 0x0A, 0x15, 0x18, 0x1E, 0x29, 0x33, 0x55, 0x65]) := by
  rw [← decodeFamily0_eq_none, ← decodeFamily8_eq_none, ← decodeFamilyE_eq_none, ← decodeFamilyF_eq_none]
  have d := dispatched_decodeRow w
  generalize decodeRow w = r at d ⊢
  cases d <;> simp [*]

/-- The decoder rejects a word, and with the word itself, exactly when no row answers it. -/
theorem decodeWord_unknown {w : Word} : decodeWord w = .error (.unknownOpcode w) ↔ decodeRow w = none :=
  ⟨fun h => (decodeWord_error h).1, fun h => by simp [decodeWord, h]⟩

/-! ### Encoding and decoding -/

/-- Settles O1: instruction by instruction, the round trips of `Laws.RoundTrip`. -/
theorem decodeEncode : Obligations.DecodeEncode
  | .nop => Laws.RoundTrip.nop
  | .cls => Laws.RoundTrip.cls
  | .ret => Laws.RoundTrip.ret
  | .jp nnn => Laws.RoundTrip.jp nnn
  | .call nnn => Laws.RoundTrip.call nnn
  | .seImm x nn => Laws.RoundTrip.seImm x nn
  | .sneImm x nn => Laws.RoundTrip.sneImm x nn
  | .seReg x y => Laws.RoundTrip.seReg x y
  | .ldImm x nn => Laws.RoundTrip.ldImm x nn
  | .addImm x nn => Laws.RoundTrip.addImm x nn
  | .ldReg x y => Laws.RoundTrip.ldReg x y
  | .orReg x y => Laws.RoundTrip.orReg x y
  | .andReg x y => Laws.RoundTrip.andReg x y
  | .xorReg x y => Laws.RoundTrip.xorReg x y
  | .addReg x y => Laws.RoundTrip.addReg x y
  | .subReg x y => Laws.RoundTrip.subReg x y
  | .shr x y => Laws.RoundTrip.shr x y
  | .subnReg x y => Laws.RoundTrip.subnReg x y
  | .shl x y => Laws.RoundTrip.shl x y
  | .sneReg x y => Laws.RoundTrip.sneReg x y
  | .ldI nnn => Laws.RoundTrip.ldI nnn
  | .jpV0 nnn => Laws.RoundTrip.jpV0 nnn
  | .rnd x nn => Laws.RoundTrip.rnd x nn
  | .drw x y n => Laws.RoundTrip.drw x y n
  | .skp x => Laws.RoundTrip.skp x
  | .sknp x => Laws.RoundTrip.sknp x
  | .ldVxDt x => Laws.RoundTrip.ldVxDt x
  | .ldVxK x => Laws.RoundTrip.ldVxK x
  | .ldDtVx x => Laws.RoundTrip.ldDtVx x
  | .ldStVx x => Laws.RoundTrip.ldStVx x
  | .addI x => Laws.RoundTrip.addI x
  | .ldF x => Laws.RoundTrip.ldF x
  | .ldB x => Laws.RoundTrip.ldB x
  | .ldMemVx x => Laws.RoundTrip.ldMemVx x
  | .ldVxMem x => Laws.RoundTrip.ldVxMem x

theorem encode_of_decodeFamily0 {w : Word} {i : Instr} (h : decodeFamily0 w = some i) : encode i = w := by
  simp only [decodeFamily0] at h
  split_ifs at h with hw hw hw <;> cases h <;> exact hw.symm

theorem encode_of_decodeFamily8 {w : Word} {i : Instr} (hop : opField w = 0x8) (h : decodeFamily8 w = some i) :
    encode i = w := by
  simp only [decodeFamily8] at h
  split_ifs at h with hn hn hn hn hn hn hn hn hn <;> cases h <;> exact formXYN_fields hop hn

theorem encode_of_decodeFamilyE {w : Word} {i : Instr} (hop : opField w = 0xE) (h : decodeFamilyE w = some i) :
    encode i = w := by
  simp only [decodeFamilyE] at h
  split_ifs at h with hnn hnn <;> cases h <;> exact formXNN_fields hop hnn

theorem encode_of_decodeFamilyF {w : Word} {i : Instr} (hop : opField w = 0xF) (h : decodeFamilyF w = some i) :
    encode i = w := by
  simp only [decodeFamilyF] at h
  split_ifs at h with hnn hnn hnn hnn hnn hnn hnn hnn hnn <;> cases h <;> exact formXNN_fields hop hnn

/-- Whatever arm answered an instruction, the instruction's format rebuilds the word from the fields the arm read. -/
theorem encode_of_dispatched {w : Word} {i : Instr} (d : Dispatched w (some i)) : encode i = w := by
  generalize hr : some i = r at d
  cases d with
  | family0 => exact encode_of_decodeFamily0 hr.symm
  | family8 hop => exact encode_of_decodeFamily8 hop hr.symm
  | familyE hop => exact encode_of_decodeFamilyE hop hr.symm
  | familyF hop => exact encode_of_decodeFamilyF hop hr.symm
  | jp hop | call hop | ldI hop | jpV0 hop => cases hr; exact formNNN_fields hop
  | seImm hop | sneImm hop | ldImm hop | addImm hop | rnd hop => cases hr; exact formXNN_fields hop rfl
  | family5 hop | family9 hop => split at hr <;> cases hr; exact formXYN_fields hop ‹_›
  | drw hop => cases hr; exact formXYN_fields hop rfl

/-- Settles O2: by the arm of the dispatch that answered. -/
theorem encodeDecode : Obligations.EncodeDecode := fun w _ h =>
  encode_of_dispatched (decodeWord_ok.1 h ▸ dispatched_decodeRow w)

/-- Settles O6: eight evaluations of the decoder. -/
theorem sampleWordsDecode : Obligations.SampleWordsDecode :=
  ⟨rfl, rfl, rfl, rfl, rfl, rfl, rfl, rfl⟩

/-! ### A row that matches fixes the fields its mask keeps (R70) -/

theorem opField_and (w m : Word) : opField (w &&& m) = opField w &&& opField m := BitVec.extractLsb'_and

theorem nBits_and (w m : Word) : nBits (w &&& m) = nBits w &&& nBits m := BitVec.extractLsb'_and

theorem nnField_and (w m : Word) : nnField (w &&& m) = nnField w &&& nnField m := BitVec.extractLsb'_and

theorem and_mask_of_hits {r : OpcodeRow} {w : Word} (h : r.hits w = true) : w &&& r.mask = r.pattern := by
  simpa [OpcodeRow.hits] using h

theorem word_of_hits {r : OpcodeRow} {w : Word} (hm : r.mask = BitVec.allOnes 16) (h : r.hits w = true) :
    w = r.pattern := by
  rw [← and_mask_of_hits h, hm, BitVec.and_allOnes]

theorem nBits_of_hits {r : OpcodeRow} {w : Word} (hm : nBits r.mask = BitVec.allOnes 4) (h : r.hits w = true) :
    nBits w = nBits r.pattern := by
  rw [← and_mask_of_hits h, nBits_and, hm, BitVec.and_allOnes]

theorem nnField_of_hits {r : OpcodeRow} {w : Word} (hm : nnField r.mask = BitVec.allOnes 8) (h : r.hits w = true) :
    nnField w = nnField r.pattern := by
  rw [← and_mask_of_hits h, nnField_and, hm, BitVec.and_allOnes]

/-- Every mask of the table keeps the family nibble. -/
theorem opField_of_hits {r : OpcodeRow} {w : Word} (hr : r ∈ opcodeTable) (h : r.hits w = true) :
    opField r.pattern = opField w := by
  have hm : ∀ r ∈ opcodeTable, opField r.mask = BitVec.allOnes 4 := by decide
  rw [← and_mask_of_hits h, opField_and, hm r hr, BitVec.and_allOnes]

/-- A word that a row matches is decoded: in each family with unknown words the family's rows keep the discriminating
field and have one of the decoder's values there, as a look through the table shows. -/
theorem decodeRow_ne_none_of_hits {r : OpcodeRow} {w : Word} (hr : r ∈ opcodeTable) (h : r.hits w = true) :
    decodeRow w ≠ none := by
  have hfamily := opField_of_hits hr h
  rw [Ne, decodeRow_eq_none_iff]
  rintro (⟨hop, hw⟩ | ⟨hop, hn⟩ | ⟨hop, hn⟩ | ⟨hop, hn⟩ | ⟨hop, hnn⟩ | ⟨hop, hnn⟩)
  · have hrows : ∀ r ∈ opcodeTable, opField r.pattern = 0x0 →
        r.mask = BitVec.allOnes 16 ∧ r.pattern ∈ [0x0000#16, 0x00E0, 0x00EE] := by decide
    obtain ⟨hm, hp⟩ := hrows r hr (hfamily.trans hop)
    exact hw (word_of_hits hm h ▸ hp)
  · have hrows : ∀ r ∈ opcodeTable, opField r.pattern = 0x5 →
        nBits r.mask = BitVec.allOnes 4 ∧ nBits r.pattern = 0x0 := by decide
    obtain ⟨hm, hp⟩ := hrows r hr (hfamily.trans hop)
    exact hn (nBits_of_hits hm h ▸ hp)
  · have hrows : ∀ r ∈ opcodeTable, opField r.pattern = 0x9 →
        nBits r.mask = BitVec.allOnes 4 ∧ nBits r.pattern = 0x0 := by decide
    obtain ⟨hm, hp⟩ := hrows r hr (hfamily.trans hop)
    exact hn (nBits_of_hits hm h ▸ hp)
  · have hrows : ∀ r ∈ opcodeTable, opField r.pattern = 0x8 → nBits r.mask = BitVec.allOnes 4 ∧
        nBits r.pattern ∈ [0x0#4, 0x1, 0x2, 0x3, 0x4, 0x5, 0x6, 0x7, 0xE] := by decide
    obtain ⟨hm, hp⟩ := hrows r hr (hfamily.trans hop)
    exact hn (nBits_of_hits hm h ▸ hp)
  · have hrows : ∀ r ∈ opcodeTable, opField r.pattern = 0xE →
        nnField r.mask = BitVec.allOnes 8 ∧ nnField r.pattern ∈ [0x9E#8, 0xA1] := by decide
    obtain ⟨hm, hp⟩ := hrows r hr (hfamily.trans hop)
    exact hnn (nnField_of_hits hm h ▸ hp)
  · have hrows : ∀ r ∈ opcodeTable, opField r.pattern = 0xF → nnField r.mask = BitVec.allOnes 8 ∧
        nnField r.pattern ∈ [0x07#8, 0x0A, 0x15, 0x18, 0x1E, 0x29, 0x33, 0x55, 0x65] := by decide
    obtain ⟨hm, hp⟩ := hrows r hr (hfamily.trans hop)
    exact hnn (nnField_of_hits hm h ▸ hp)

/-- Two rows that match one word agree where both masks look, and in the table no two different rows do. -/
theorem eq_of_hits {r q : OpcodeRow} {w : Word} (hr : r ∈ opcodeTable) (hq : q ∈ opcodeTable)
    (hrw : r.hits w = true) (hqw : q.hits w = true) : r = q := by
  have hdisjoint : ∀ r ∈ opcodeTable, ∀ q ∈ opcodeTable,
      r.pattern &&& q.mask = q.pattern &&& r.mask → r = q := by decide
  apply hdisjoint r hr q hq
  rw [← and_mask_of_hits hrw, ← and_mask_of_hits hqw, BitVec.and_assoc, BitVec.and_assoc, BitVec.and_comm r.mask]

/-! ### The row of an instruction -/

/-- The mask of formats NNN, XNN and XYN clears every operand. -/
theorem and_opMask (w : Word) : w &&& 0xF000 = formNNN (opField w) 0 := by
  have hop : opField (w &&& 0xF000) = opField w := (opField_and w _).trans BitVec.and_allOnes
  have hnnn : nnnField (w &&& 0xF000) = 0 := by simp [nnnField, BitVec.extractLsb'_and]
  rw [← hnnn, formNNN_fields hop]

/-- The mask of format XYF clears x and y. -/
theorem and_opNMask (w : Word) : w &&& 0xF00F = formXYN (opField w) 0 0 (nBits w) := by
  have hop : opField (w &&& 0xF00F) = opField w := (opField_and w _).trans BitVec.and_allOnes
  have hn : nBits (w &&& 0xF00F) = nBits w := (nBits_and w _).trans BitVec.and_allOnes
  have hx : xField (w &&& 0xF00F) = 0 := by simp [xField, BitVec.extractLsb'_and]
  have hy : yField (w &&& 0xF00F) = 0 := by simp [yField, BitVec.extractLsb'_and]
  rw [← formXYN_fields hop hn, hx, hy]

/-- The mask of format XF clears x. -/
theorem and_opNNMask (w : Word) : w &&& 0xF0FF = formXNN (opField w) 0 (nnField w) := by
  have hop : opField (w &&& 0xF0FF) = opField w := (opField_and w _).trans BitVec.and_allOnes
  have hnn : nnField (w &&& 0xF0FF) = nnField w := (nnField_and w _).trans BitVec.and_allOnes
  have hx : xField (w &&& 0xF0FF) = 0 := by simp [xField, BitVec.extractLsb'_and]
  rw [← formXNN_fields hop hnn, hx]

/-- The bits an instruction's format fixes (R69): all of them, op alone, op and nibble 4, or op and the low byte. -/
def Instr.mask : Instr → Word
  | .nop | .cls | .ret => 0xFFFF
  | .jp _ | .call _ | .ldI _ | .jpV0 _ | .seImm _ _ | .sneImm _ _ | .ldImm _ _ | .addImm _ _ | .rnd _ _
  | .drw _ _ _ => 0xF000
  | .seReg _ _ | .sneReg _ _ | .ldReg _ _ | .orReg _ _ | .andReg _ _ | .xorReg _ _ | .addReg _ _ | .subReg _ _
  | .shr _ _ | .subnReg _ _ | .shl _ _ => 0xF00F
  | .skp _ | .sknp _ | .ldVxDt _ | .ldVxK _ | .ldDtVx _ | .ldStVx _ | .addI _ | .ldF _ | .ldB _ | .ldMemVx _
  | .ldVxMem _ => 0xF0FF

/-- The row that an instruction's number, its own word and its format's mask make. -/
def Instr.row (i : Instr) : OpcodeRow := ⟨i.rowNum, encode i &&& i.mask, i.mask⟩

theorem Instr.row_hits_encode (i : Instr) : i.row.hits (encode i) = true := beq_self_eq_true _

/-- Under its mask an instruction's word has no operand left, so that the row is a closed one to look up. -/
theorem Instr.row_mem (i : Instr) : i.row ∈ opcodeTable := by
  cases i <;>
    simp only [Instr.row, Instr.mask, Instr.rowNum, encode, formXF, and_opMask, and_opNMask, and_opNNMask,
      opField_formNNN, opField_formXNN, opField_formXYN, nBits_formXYN, nnField_formXNN] <;>
    decide

/-- Settles O3: a matching row rules out every family of unknown words, and an instruction's own row matches its
word. -/
theorem decodesExactlyTheTable : Obligations.DecodesExactlyTheTable := by
  have hrow {w : Word} {i : Instr} (h : decodeWord w = .ok i) : i.row.hits w = true :=
    encodeDecode w i h ▸ i.row_hits_encode
  refine ⟨rfl, fun w =>
    ⟨⟨?_, ?_⟩, fun i h => ⟨i.row, i.row_mem, rfl, hrow h⟩, fun r hr q hq => eq_of_hits hr hq⟩⟩
  · intro h
    obtain ⟨r, hr, hrw⟩ := List.any_eq_true.1 h
    obtain ⟨i, hi⟩ := Option.ne_none_iff_exists'.1 (decodeRow_ne_none_of_hits hr hrw)
    exact ⟨i, decodeWord_ok.2 hi⟩
  · rintro ⟨i, h⟩
    exact List.any_eq_true.2 ⟨i.row, i.row_mem, hrow h⟩

/-! ### The unknown words as numbers -/

/-- The list of R79, for a word of family `op` with the number `n`. -/
def UnknownInFamily (op n : Nat) : Prop :=
  (op = 0x0 ∧ n ≠ 0x0000 ∧ n ≠ 0x00E0 ∧ n ≠ 0x00EE) ∨
  (op = 0x5 ∧ n % 16 ≠ 0) ∨
  (op = 0x9 ∧ n % 16 ≠ 0) ∨
  (op = 0x8 ∧ n % 16 ∈ [0x8, 0x9, 0xA, 0xB, 0xC, 0xD, 0xF]) ∨
  (op = 0xE ∧ n % 256 ∉ [0x9E, 0xA1]) ∨
  (op = 0xF ∧ n % 256 ∉ [0x07, 0x0A, 0x15, 0x18, 0x1E, 0x29, 0x33, 0x55, 0x65])

/-- R79 lists the unknown nibbles of family 8, the decoder the others. -/
theorem mem_other_nibbles_iff : ∀ {k : Nat}, k < 16 → (k ∈ [0x8, 0x9, 0xA, 0xB, 0xC, 0xD, 0xF] ↔
    k ∉ [0x0, 0x1, 0x2, 0x3, 0x4, 0x5, 0x6, 0x7, 0xE]) := by decide

theorem decodeRow_eq_none_iff_number {w : Word} :
    decodeRow w = none ↔ UnknownInFamily (w.toNat / 4096) w.toNat := by
  rw [decodeRow_eq_none_iff, UnknownInFamily, mem_other_nibbles_iff (Nat.mod_lt _ (by decide))]
  simp [← BitVec.toNat_inj]

/-- Settles O5: a step answers an unknown word with the fault, and the list is the dispatch's, read as numbers. -/
theorem unknownWordsListed : Obligations.UnknownWordsListed := by
  refine ⟨fun s hpc hunk => ?_, fun w => decodeWord_unknown.trans decodeRow_eq_none_iff_number⟩
  rcases Machine.step_cases s with ⟨hgt, -⟩ | ⟨-, -, hs⟩ | ⟨-, i, hi, -⟩
  · omega
  · exact hs
  · rw [hunk] at hi
    cases hi

/-! ### Counting the words that decode (R72) -/

/-- A count over `b * m` numbers, in `b` blocks of `m`. -/
theorem countP_range_mul (p : Nat → Bool) (b m : Nat) :
    (List.range (b * m)).countP p =
      ((List.range b).map fun a => (List.range m).countP fun k => p (a * m + k)).sum := by
  induction b with
  | zero => simp
  | succ b ih => simp [Nat.succ_mul, List.range_add, List.range_succ, List.countP_map, ih, Function.comp_def]

/-- A predicate of the remainder is counted in every block alike. -/
theorem countP_range_mod (q : Nat → Bool) (b m : Nat) :
    (List.range (b * m)).countP (fun k => q (k % m)) = b * (List.range m).countP q := by
  have hblock : (List.range m).countP (fun k => q (k % m)) = (List.range m).countP q :=
    List.countP_congr fun k hk => by rw [Nat.mod_eq_of_lt (List.mem_range.1 hk)]
  simp [countP_range_mul, hblock]

theorem countP_range_mem {S : List Nat} {m : Nat} (hS : S.Nodup) (hm : ∀ k ∈ S, k < m) :
    (List.range m).countP (· ∈ S) = S.length := by
  rw [List.countP_eq_length_filter]
  refine ((List.perm_ext_iff_of_nodup (List.nodup_range.filter _) hS).2 fun k => ?_).length_eq
  simpa using hm k

theorem isSome_decodeRow_iff {n : Nat} (h : n < 65536) :
    (decodeRow (BitVec.ofNat 16 n)).isSome = true ↔ ¬ UnknownInFamily (n / 4096) n := by
  have hn : (BitVec.ofNat 16 n).toNat = n := Nat.mod_eq_of_lt h
  rw [Option.isSome_iff_ne_none, Ne, decodeRow_eq_none_iff_number, hn]

/-- The number of words of family `op` that decode. -/
def familyCount (op : Nat) : Nat :=
  (List.range 4096).countP fun k => (decodeRow (BitVec.ofNat 16 (op * 4096 + k))).isSome

/-- A family whose words decode when their remainder by `m` is in `S`. -/
theorem familyCount_eq {op b m : Nat} {S : List Nat} (hop : op < 16) (hbm : b * m = 4096) (hS : S.Nodup)
    (hm : ∀ k ∈ S, k < m) (h : ∀ k < 4096, UnknownInFamily op (op * 4096 + k) ↔ k % m ∉ S) :
    familyCount op = b * S.length := by
  rw [familyCount, ← countP_range_mem hS hm, ← countP_range_mod, hbm]
  refine List.countP_congr fun k hk => ?_
  have hk : k < 4096 := List.mem_range.1 hk
  have hfamily : (op * 4096 + k) / 4096 = op := by omega
  rw [isSome_decodeRow_iff (by omega), hfamily, h k hk, not_not, decide_eq_true_iff]

theorem familyCount_0 : familyCount 0x0 = 3 := by
  refine familyCount_eq (b := 1) (m := 4096) (S := [0x0000, 0x00E0, 0x00EE])
    (by decide) rfl (by decide) (by decide) fun k hk => ?_
  simp [UnknownInFamily, Nat.mod_eq_of_lt hk]

/-- The families without unknown words. -/
theorem familyCount_full {op : Nat} (hop : op ∈ [0x1, 0x2, 0x3, 0x4, 0x6, 0x7, 0xA, 0xB, 0xC, 0xD]) :
    familyCount op = 4096 := by
  simp only [List.mem_cons, List.not_mem_nil, or_false] at hop
  refine familyCount_eq (b := 4096) (m := 1) (S := [0]) (by omega) rfl (by decide) (by decide) fun k hk => ?_
  rcases hop with rfl | rfl | rfl | rfl | rfl | rfl | rfl | rfl | rfl | rfl <;> simp [UnknownInFamily, Nat.mod_one]

theorem familyCount_5_9 {op : Nat} (hop : op ∈ [0x5, 0x9]) : familyCount op = 256 := by
  simp only [List.mem_cons, List.not_mem_nil, or_false] at hop
  refine familyCount_eq (b := 256) (m := 16) (S := [0x0]) (by omega) rfl (by decide) (by decide) fun k hk => ?_
  have hlow : (op * 4096 + k) % 16 = k % 16 := by omega
  rcases hop with rfl | rfl <;> rw [UnknownInFamily, hlow] <;> simp

theorem familyCount_8 : familyCount 0x8 = 2304 := by
  refine familyCount_eq (b := 256) (m := 16) (S := [0x0, 0x1, 0x2, 0x3, 0x4, 0x5, 0x6, 0x7, 0xE])
    (by decide) rfl (by decide) (by decide) fun k hk => ?_
  have hlow : (0x8 * 4096 + k) % 16 = k % 16 := by omega
  rw [UnknownInFamily, hlow, mem_other_nibbles_iff (Nat.mod_lt k (by decide))]
  simp

theorem familyCount_E : familyCount 0xE = 32 := by
  refine familyCount_eq (b := 16) (m := 256) (S := [0x9E, 0xA1])
    (by decide) rfl (by decide) (by decide) fun k hk => ?_
  have hlow : (0xE * 4096 + k) % 256 = k % 256 := by omega
  rw [UnknownInFamily, hlow]
  simp

theorem familyCount_F : familyCount 0xF = 144 := by
  refine familyCount_eq (b := 16) (m := 256) (S := [0x07, 0x0A, 0x15, 0x18, 0x1E, 0x29, 0x33, 0x55, 0x65])
    (by decide) rfl (by decide) (by decide) fun k hk => ?_
  have hlow : (0xF * 4096 + k) % 256 = k % 256 := by omega
  rw [UnknownInFamily, hlow]
  simp

/-- Settles O4: the decoder's two answers, and the sum of the sixteen families' counts. -/
theorem decodeIsTotalWithCounts : Obligations.DecodeIsTotalWithCounts := by
  constructor
  · intro w
    cases h : decodeWord w with
    | ok i => exact .inl ⟨i, rfl⟩
    | error e => exact .inr (congrArg _ (decodeWord_error h).2)
  · calc (List.range (16 * 4096)).countP (fun n => (decodeRow (BitVec.ofNat 16 n)).isSome)
      _ = ((List.range 16).map familyCount).sum := countP_range_mul _ _ _
      _ = 43955 := by
        simp [List.range_succ, familyCount_0, familyCount_full, familyCount_5_9, familyCount_8, familyCount_E,
          familyCount_F]

end Sys2Proof

/-!
PROOFS. The fetch-and-step family (40_fetch_step.md): the fetch unit in and out of range, the step as exec of the decoded
instruction, who changes the timers and the keypad latch, and the flag as a function of the operands.
-/
namespace Sys2Proof.Machine

/-! ### The fetch unit (R84, R85) -/

/-- The fetched word is big-endian (R56, R85). -/
theorem toNat_fetchWord (s : State) :
    s.fetchWord.toNat = (s.readByte s.pc.toNat).toNat * 256 + (s.readByte (s.pc.toNat + 1)).toNat := by
  have hhi := (s.readByte s.pc.toNat).isLt
  have hlo := (s.readByte (s.pc.toNat + 1)).isLt
  rw [State.fetchWord, wordOfBytes, BitVec.toNat_ofNat]
  omega

/-- The fetch advance changes PC only (R85). -/
theorem frame_advance (s : State) : Frame [.pc] s s.advance := by
  intro p hp
  cases p with
  | pc => simp at hp
  | regs | memory => exact fun _ => rfl
  | stack => exact ⟨rfl, rfl⟩
  | _ => rfl

/-- Settles O8: in range the fetch answers the word at PC and the advanced state. -/
theorem fetchReadsBigEndian : Obligations.FetchReadsBigEndian := fun s hp =>
  ⟨s.fetchWord, s.advance, fetch_of_le hp, toNat_fetchWord s, toNat_advance_pc hp, frame_advance s⟩

/-- A fetch succeeds exactly in range (R84). -/
theorem fetch_ok_iff {s : State} : (∃ p, fetch s = .ok p) ↔ s.pc.toNat ≤ 0xFFE := by
  constructor
  · rintro ⟨p, h⟩
    by_contra hp
    rw [fetch_of_gt (Nat.lt_of_not_le hp)] at h
    cases h
  · exact fun hp => ⟨_, fetch_of_le hp⟩

/-! ### The cycle by its fetch and decode (R84, R88, R95) -/

/-- Out of range a cycle ends at its fetch, whatever its execute phase (R84). -/
theorem cycle_of_gt {execute : Instr → State → Result} {s : State} (hp : 0xFFE < s.pc.toNat) :
    cycle execute s = .fault (.addressOutOfRange (max s.pc.toNat 0x1000) s.pc) := by
  rw [cycle, fetch_of_gt hp]

/-- A cycle that fetches the word of `i` is its execute phase of `i` on the advanced state (R85, R88). -/
theorem cycle_of_decode {execute : Instr → State → Result} {s : State} {i : Instr} (hp : s.pc.toNat ≤ 0xFFE)
    (hd : decodeWord s.fetchWord = .ok i) : cycle execute s = execute i s.advance := by
  simp only [cycle, fetch_of_le hp, decodeFetched, hd]

/-- Settles O7: `step` and `stepWith` are the one cycle over `exec` and `execWith`. -/
theorem stepRunsDecoded : Obligations.StepRunsDecoded := fun _ _ hp hb =>
  have hd := decodeBytes_pair.1 hb
  ⟨cycle_of_decode hp hd, fun _ => ⟨cycle_of_decode hp hd, execWith_eq_exec⟩⟩

/-- After an operation `step` that faults the host finds the state unchanged (R146). -/
theorem stateAfter_step_of_fault {font : Vector Byte Config.fontBytes} {r : Byte} {s : State} {f : Fault}
    (h : stepWith r s = .fault f) : (HostOp.step r).stateAfter font s = s := by
  simp [HostOp.stateAfter, HostOp.apply, h]

/-- Settles O9: PC + 1 above 0xFFF is PC out of the fetch's range, where every cycle is the fetch fault. -/
theorem fetchOutOfRangeFaults : Obligations.FetchOutOfRangeFaults := fun _ _ s =>
  ⟨fetch_ok_iff, fun h =>
    have hp : 0xFFE < s.pc.toNat := by omega
    ⟨cycle_of_gt hp, stateAfter_step_of_fault (cycle_of_gt hp)⟩⟩

/-! ### Who changes the timers and the keypad latch (R27, R93) -/

/-- No effect changes the keypad latch (R27). -/
theorem Effect.keys_eq {i : Instr} {s t : State} (e : Effect s i t) : t.keys = s.keys := by
  cases e with
  | skip c => exact skipIf_keys s c
  | _ => rfl

/-- An effect that changes DT is that of Fx15 (R93). -/
theorem Effect.writesDelay {i : Instr} {s t : State} (e : Effect s i t) (hne : t.dt ≠ s.dt) : ∃ x, i = .ldDtVx x := by
  cases e with
  | delay x => exact ⟨x, rfl⟩
  | skip c => exact absurd (skipIf_dt s c) hne
  | _ => exact absurd rfl hne

/-- An effect that changes ST is that of Fx18 (R93). -/
theorem Effect.writesSound {i : Instr} {s t : State} (e : Effect s i t) (hne : t.st ≠ s.st) : ∃ x, i = .ldStVx x := by
  cases e with
  | sound x => exact ⟨x, rfl⟩
  | skip c => exact absurd (skipIf_st s c) hne
  | _ => exact absurd rfl hne

/-- The execute phase on the step's input changes no latch: Cxnn writes a register, any other instruction is `exec`. -/
theorem execWith_keys {r : Byte} {i : Instr} {s t : State} (h : execWith r i s = .next t) : t.keys = s.keys := by
  by_cases hi : ∃ x nn, i = .rnd x nn
  · obtain ⟨x, nn, rfl⟩ := hi
    cases h
    exact rndWith_keys s r x nn
  · rw [execWith_eq_exec fun x nn hx => hi ⟨x, nn, hx⟩] at h
    exact (effect_of_exec h).keys_eq

/-- An operation `step` that answers a next state ran one cycle on its input, and replies nothing (R95, R153). -/
theorem apply_step_next {font : Vector Byte Config.fontBytes} {r : Byte} {s t : State} {y : Reply}
    (h : (HostOp.step r).apply font s = .next (t, y)) : stepWith r s = .next t ∧ y = .ok := by
  simp only [HostOp.apply] at h
  split at h
  · cases h; exact ⟨‹_›, rfl⟩
  · cases h
  · cases h

/-- A key_set that is not refused wrote the latch of a key that exists (R156). -/
theorem apply_keySet_next {font : Vector Byte Config.fontBytes} {k : Nat} {p : Bool} {s t : State} {y : Reply}
    (h : (HostOp.keySet k p).apply font s = .next (t, y)) :
    ∃ hk : k < Config.numKeys, t = keySet ⟨k, hk⟩ p s ∧ y = .ok := by
  simp only [HostOp.apply] at h
  split at h
  · cases h; exact ⟨‹_›, rfl, rfl⟩
  · cases h

/-- A load that does not fault stored an image that fits (R65, R143). -/
theorem apply_load_next {font : Vector Byte Config.fontBytes} {image : List Byte} {s t : State} {y : Reply}
    (h : (HostOp.load image).apply font s = .next (t, y)) :
    image.length ≤ Config.maxRom ∧ t = loadImage image s ∧ y = .ok := by
  simp only [HostOp.apply] at h
  split at h
  · cases h; exact ⟨‹_›, rfl, rfl⟩
  · cases h

/-- An operation that changes a timer is a step, a tick or a reset (R93, R162). -/
theorem timer_changers {font : Vector Byte Config.fontBytes} {op : HostOp} {s t : State} {y : Reply}
    (h : op.apply font s = .next (t, y)) (hne : t.dt ≠ s.dt ∨ t.st ≠ s.st) :
    (∃ r, op = .step r) ∨ op = .tick ∨ op = .reset := by
  cases op with
  | step r => exact .inl ⟨r, rfl⟩
  | tick => exact .inr (.inl rfl)
  | reset => exact .inr (.inr rfl)
  | keySet k p => obtain ⟨_, rfl, -⟩ := apply_keySet_next h; simp at hne
  | load image => obtain ⟨-, rfl, -⟩ := apply_load_next h; simp at hne
  | fbRead => cases h; simp at hne

/-- An operation that changes the keypad latch is a key_set or a reset (R27, R162). -/
theorem latch_changers {font : Vector Byte Config.fontBytes} {op : HostOp} {s t : State} {y : Reply}
    (h : op.apply font s = .next (t, y)) (hne : t.keys ≠ s.keys) : (∃ k p, op = .keySet k p) ∨ op = .reset := by
  cases op with
  | keySet k p => exact .inl ⟨k, p, rfl⟩
  | reset => exact .inr rfl
  | step r =>
    obtain ⟨hs, -⟩ := apply_step_next h
    obtain ⟨-, i, -, hx⟩ := stepWith_next hs
    exact absurd (execWith_keys hx) hne
  | tick => cases h; exact absurd (tick_keys s) hne
  | load image => obtain ⟨-, rfl, -⟩ := apply_load_next h; exact absurd (loadImage_keys s image) hne
  | fbRead => cases h; exact absurd rfl hne

/-- Settles O19: of the effect that the step ran, and operation by operation. -/
theorem stepKeepsTimersAndKeys : Obligations.StepKeepsTimersAndKeys := by
  refine ⟨fun s t h => ?_, fun _ _ _ _ _ h => ⟨timer_changers h, latch_changers h⟩⟩
  obtain ⟨-, i, hd, hx⟩ := step_next h
  have e := effect_of_exec hx
  refine ⟨e.keys_eq, fun hne => ?_, fun hne => ?_⟩
  · obtain ⟨x, rfl⟩ := e.writesDelay hne; exact ⟨x, hd⟩
  · obtain ⟨x, rfl⟩ := e.writesSound hne; exact ⟨x, hd⟩

/-! ### The flag is a function of the operands (R89) -/

/-- Each of the five ALU flag writers has a function that gives its flag from the two operands in every state; the
result it writes first is left open. -/
theorem exec_flagWriter {i : Instr} {x y : Reg}
    (hi : i ∈ [.addReg x y, .subReg x y, .shr x y, .subnReg x y, .shl x y]) :
    ∃ flag : Byte → Byte → Byte, ∀ s : State,
      ∃ b, exec i s = .next (s.setResultFlag x b (flag (s.getV x) (s.getV y))) := by
  simp only [List.mem_cons, List.not_mem_nil, or_false] at hi
  rcases hi with rfl | rfl | rfl | rfl | rfl
  · exact ⟨carryFlag, fun _ => ⟨_, rfl⟩⟩
  · exact ⟨notBorrowFlag, fun _ => ⟨_, rfl⟩⟩
  · exact ⟨fun vx _ => lsbFlag vx, fun _ => ⟨_, rfl⟩⟩
  · exact ⟨fun vx vy => notBorrowFlag vy vx, fun _ => ⟨_, rfl⟩⟩
  · exact ⟨fun vx _ => msbFlag vx, fun _ => ⟨_, rfl⟩⟩

/-- Settles O24: the flag is written last, so VF ends as the flag of operands that the two states share. -/
theorem flagDependsOnOperandsOnly : Obligations.FlagDependsOnOperandsOnly := by
  intro x y s s' t t' i hi hx hy h h'
  obtain ⟨flag, hflag⟩ := exec_flagWriter hi
  have hVF : ∀ {s t : State}, exec i s = .next t → t.getV VF = flag (s.getV x) (s.getV y) := by
    intro s t h
    obtain ⟨b, hb⟩ := hflag s
    rw [hb] at h
    cases h
    exact getV_setResultFlag_flag s x b _
  calc t.getV VF = flag (s.getV x) (s.getV y) := hVF h
    _ = flag (s'.getV x) (s'.getV y) := by rw [hx, hy]
    _ = t'.getV VF := (hVF h').symm

end Sys2Proof.Machine

/-!
PROOFS. The control and stack family (41_control_stack.md): the jumps, CALL and RET with their frames, the call stack as
the list of the addresses it holds, and the parked state.
-/
namespace Sys2Proof.Machine

/-! ### Jumps (R99, R101, R103) -/

/-- Settles O26: the word decodes by its round trip, and NOP's arm of `exec` is the state itself. -/
theorem nopDoesNothing : Obligations.NopDoesNothing := ⟨Laws.RoundTrip.nop, fun _ => rfl⟩

/-- A jump changes PC only (R104). -/
theorem frame_jumpTo (w : Word) (s : State) : Frame [.pc] s (jumpTo w s) := by
  intro p hp
  cases p with
  | pc => simp at hp
  | regs | memory => exact fun _ => rfl
  | stack => exact ⟨rfl, rfl⟩
  | _ => rfl

/-- An absolute address is its field as a number (R74). -/
theorem toNat_absolute (nnn : Addr) : (absolute nnn).toNat = nnn.toNat :=
  BitVec.toNat_setWidth_of_le (by decide)

/-- The sum of a u8 and a u12 does not wrap at 16 bits (R103). -/
theorem toNat_v0Target (nnn : Addr) (s : State) : (v0Target nnn s).toNat = (s.getV 0).toNat + nnn.toNat := by
  have hv := (s.getV 0).isLt
  have hn := nnn.isLt
  rw [v0Target, BitVec.toNat_ofNat, Nat.mod_eq_of_lt (by omega)]

/-- Settles O29: each jump is `jumpTo` its target, and neither target wraps. -/
theorem jumpsSetPc : Obligations.JumpsSetPc := fun nnn s =>
  ⟨⟨Laws.RoundTrip.jp nnn, jumpTo (absolute nnn) s, rfl, toNat_absolute nnn, frame_jumpTo _ s⟩,
    Laws.RoundTrip.jpV0 nnn, jumpTo (v0Target nnn s) s, rfl, toNat_v0Target nnn s, toNat_v0Target_le nnn s,
    frame_jumpTo _ s⟩

/-! ### CALL and RET (R100, R102) -/

/-- A write of PC, SP and the slots changes nothing else. -/
theorem frame_pc_stack (s : State) (pc : Word) (stack : Vector Word Config.stackCap)
    (sp : Fin (Config.stackCap + 1)) :
    Frame [.pc, .stack] s { s with pc := pc, stack := stack, sp := sp } := by
  intro p hp
  cases p with
  | pc | stack => simp at hp
  | regs | memory => exact fun _ => rfl
  | _ => rfl

/-- RET with an address to pop (R100). -/
theorem exec_ret_of_eq {s : State} {k : Fin 16} (h : s.sp.val = k.val + 1) :
    exec .ret s = .next (jumpTo s.stack[k] { s with sp := ⟨k.val, by omega⟩ }) := by
  simp only [exec, execRet, pop_of_eq h]

/-- RET on an empty stack (R141). -/
theorem exec_ret_empty {s : State} (h : s.sp.val = 0) : exec .ret s = .fault (.stackUnderflow s.fetchAddr) := by
  simp only [exec, execRet, pop_empty h, raise_eq]

/-- CALL with a free slot (R102). -/
theorem exec_call_of_lt {s : State} (nnn : Addr) (h : s.sp.val < 16) :
    exec (.call nnn) s = .next (jumpTo (absolute nnn)
      { s with stack := s.stack.set s.sp.val s.pc, sp := ⟨s.sp.val + 1, Nat.succ_lt_succ h⟩ }) := by
  simp only [exec, execCall, push_of_lt h]

/-- CALL on a full stack (R140). -/
theorem exec_call_full {s : State} (nnn : Addr) (h : s.sp.val = 16) :
    exec (.call nnn) s = .fault (.stackOverflow s.pc s.fetchAddr) := by
  simp only [exec, execCall, push_full h, raise_eq]

/-- Settles O27: with an address to pop and without one. -/
theorem retPops : Obligations.RetPops :=
  ⟨Laws.RoundTrip.ret, fun s =>
    ⟨fun _ h => ⟨_, exec_ret_of_eq h, rfl, rfl, rfl, frame_pc_stack s _ _ _⟩, exec_ret_empty⟩⟩

/-- Settles O28: with a free slot, where only slot SP is written, and without one. -/
theorem callPushes : Obligations.CallPushes := by
  intro nnn s
  refine ⟨Laws.RoundTrip.call nnn, fun k h => ?_, exec_call_full nnn⟩
  have hlt : s.sp.val < 16 := h ▸ k.isLt
  refine ⟨_, exec_call_of_lt nnn hlt, toNat_absolute nnn, congrArg (· + 1) h, ?_, fun j hj => ?_,
    frame_pc_stack s _ _ _⟩
  · simp [h]
  · have hne : s.sp.val ≠ j.val := fun e => hj (Fin.eq_of_val_eq (e.symm.trans h))
    simp [hne]

/-! ### The call stack as a list (R96-R98) -/

/-- The addresses the stack holds, oldest first: the first SP slots (R23). -/
def heldAddresses (s : State) : List Word := s.stack.toList.take s.sp.val

/-- SP counts the addresses held (R23). -/
theorem length_heldAddresses (s : State) : (heldAddresses s).length = s.sp.val := by
  simp [heldAddresses, sp_le s]

/-- A push that fits adds the newest address (R96). -/
theorem heldAddresses_push {s : State} (r : Word) (h : s.sp.val < 16) :
    ∃ t, push r s = some t ∧ heldAddresses t = heldAddresses s ++ [r] := by
  refine ⟨_, push_of_lt h, ?_⟩
  simp [heldAddresses, List.take_add_one, Vector.toList_set, List.take_set_of_le, h]

/-- A pop takes the newest address off (R97). -/
theorem heldAddresses_pop {s : State} {rs : List Word} {r : Word} (h : heldAddresses s = rs ++ [r]) :
    ∃ t, pop s = some (r, t) ∧ heldAddresses t = rs := by
  have hlen : s.sp.val = rs.length + 1 := by rw [← length_heldAddresses, h, List.length_append]; rfl
  obtain ⟨k, hk⟩ : ∃ k : Fin 16, s.sp.val = k.val + 1 := ⟨⟨rs.length, by have := sp_le s; omega⟩, hlen⟩
  have hsplit : heldAddresses s = s.stack.toList.take k ++ [s.stack[k]] := by
    simp [heldAddresses, hk, List.take_add_one]
  obtain ⟨rfl, rfl⟩ := List.append_singleton_inj.1 (hsplit.symm.trans h)
  exact ⟨_, pop_of_eq hk, rfl⟩

/-- Pushes that fit add their addresses in order (R96). -/
theorem heldAddresses_pushAll : ∀ {vs : List Word} {s : State}, s.sp.val + vs.length ≤ 16 →
    ∃ t, pushAll vs s = some t ∧ heldAddresses t = heldAddresses s ++ vs
  | [], s, _ => ⟨s, rfl, (List.append_nil _).symm⟩
  | v :: vs, s, h => by
    rw [List.length_cons] at h
    obtain ⟨s', hpush, hs'⟩ := heldAddresses_push (s := s) v (by omega)
    have hsp : s'.sp.val = s.sp.val + 1 := by
      rw [← length_heldAddresses, hs', List.length_append, length_heldAddresses]; rfl
    obtain ⟨t, hall, ht⟩ := heldAddresses_pushAll (vs := vs) (s := s') (by omega)
    exact ⟨t, by simp [pushAll, hpush, hall], by simp [ht, hs']⟩

/-- Pops answer the newest addresses, newest first, and leave the older ones (R97). -/
theorem heldAddresses_popAll {rs vs : List Word} {t : State} (h : heldAddresses t = rs ++ vs) :
    ∃ u, popAll vs.length t = some (vs.reverse, u) ∧ heldAddresses u = rs := by
  induction vs using List.reverseRecOn generalizing t with
  | nil => exact ⟨t, rfl, h.trans (List.append_nil _)⟩
  | append_singleton vs v ih =>
    rw [← List.append_assoc] at h
    obtain ⟨t', hpop, ht'⟩ := heldAddresses_pop h
    obtain ⟨u, hall, hu⟩ := ih ht'
    exact ⟨u, by simp [popAll, hpop, hall], hu⟩

/-- Pushes that together exceed the capacity do not fit (R96). -/
theorem pushAll_eq_none : ∀ {vs : List Word} {s : State}, 16 < s.sp.val + vs.length → pushAll vs s = none
  | [], s, h => absurd (sp_le s) (Nat.not_le.2 h)
  | v :: vs, s, h => by
    rw [List.length_cons] at h
    by_cases hlt : s.sp.val < 16
    · simp only [pushAll, push_of_lt hlt, Option.bind_some]
      exact pushAll_eq_none (by show 16 < s.sp.val + 1 + vs.length; omega)
    · have hfull : s.sp.val = 16 := Nat.le_antisymm (sp_le s) (Nat.le_of_not_lt hlt)
      simp [pushAll, push_full hfull]

/-- Settles O30: the pushes append to the addresses held, the pops take the same ones off the end, and SP counts what
is left. -/
theorem stackIsLifo : Obligations.StackIsLifo := by
  refine fun vs s => ⟨fun h => ?_, pushAll_eq_none⟩
  obtain ⟨t, hpush, ht⟩ := heldAddresses_pushAll h
  obtain ⟨u, hpop, hu⟩ := heldAddresses_popAll ht
  refine ⟨t, u, hpush, ?_, hpop, Fin.eq_of_val_eq ?_⟩
  · rw [← length_heldAddresses, ht, List.length_append, length_heldAddresses]
  · rw [← length_heldAddresses, hu, length_heldAddresses]

/-! ### The parked state (R105) -/

/-- A word below 0x1000 is the absolute address of its low twelve bits (R74). -/
theorem absolute_nnnField {w : Word} (h : w.toNat < 0x1000) : absolute (nnnField w) = w := by
  apply BitVec.eq_of_toNat_eq
  rw [toNat_absolute, toNat_nnnField, Nat.mod_eq_of_lt h]

/-- The word `0x1000 | a` is that of the jump to `a` (R101, R105). -/
theorem or_absolute (nnn : Addr) : 0x1000 ||| absolute nnn = encode (.jp nnn) := by
  have hlt : nnn.toNat < 2 ^ 12 := nnn.isLt
  have hor : 4096 ||| nnn.toNat = 4096 + nnn.toNat := (Nat.two_pow_add_eq_or_of_lt hlt 1).symm
  apply BitVec.eq_of_toNat_eq
  simp [encode, formNNN, toNat_absolute, hor]
  omega

/-- Settles O31: the parked word is the jump to its own address, which undoes the fetch advance. -/
theorem parkedStateStays : Obligations.ParkedStateStays := by
  intro s hp hw
  have habs : absolute (nnnField s.pc) = s.pc := absolute_nnnField (by omega)
  have hword : s.fetchWord = encode (.jp (nnnField s.pc)) := by rw [hw, ← or_absolute, habs]
  have hd : decodeWord s.fetchWord = .ok (.jp (nnnField s.pc)) := hword ▸ Laws.RoundTrip.jp _
  calc step s = exec (.jp (nnnField s.pc)) s.advance := cycle_of_decode hp hd
    _ = .next (jumpTo (absolute (nnnField s.pc)) s.advance) := rfl
    _ = .next s := by rw [habs]; rfl

end Sys2Proof.Machine

/-!
PROOFS. The skip family (42_skips.md): the words of formats XNN and XY as the encoder's forms, PC after a skip on an equal
or an unequal pair of bytes, and the frame of a skip.
-/
namespace Sys2Proof.Machine

/-! ### The encoding column's words are the encoder's (R69, R70) -/

/-- A row's pattern is its family nibble as the word's top digit. -/
theorem wordXNN_eq_formXNN (op : BitVec 4) (x : Reg) (nn : Byte) :
    wordXNN (op.toNat * 4096) x nn = formXNN op x nn := by
  rw [wordXNN, formXNN, Nat.mul_comm 256]

/-- As `wordXNN_eq_formXNN`; the function nibble may stand in the row's pattern or beside it. -/
theorem wordXY_eq_formXYN (op n : BitVec 4) (x y : Reg) {pattern k : Nat}
    (h : pattern + k = op.toNat * 4096 + n.toNat) : wordXY pattern x y k = formXYN op x y n := by
  rw [wordXY, formXYN]
  exact congrArg _ (by omega)

/-! ### A skip (R91) -/

/-- A skip changes PC only. -/
theorem frame_skipIf (c : Bool) (s : State) : Frame [.pc] s (skipIf c s) := by
  intro p hp
  cases p with
  | pc => simp at hp
  | regs => exact skipIf_getV s c
  | memory => exact skipIf_readByte s c
  | stack => exact ⟨skipIf_sp s c, skipIf_stack s c⟩
  | index => exact skipIf_i s c
  | delay => exact skipIf_dt s c
  | sound => exact skipIf_st s c
  | keypad => exact skipIf_keys s c
  | screen => exact skipIf_fb s c
  | draws => exact skipIf_draws s c

/-- The skip of SE: on equal bytes. -/
theorem skipIf_beq_pc (a b : Byte) (s : State) :
    (skipIf (a == b) s).pc = if a = b then s.pc + 2 else s.pc := by
  rw [skipIf_pc]
  exact if_congr beq_iff_eq rfl rfl

/-- The skip of SNE: on unequal bytes. -/
theorem skipIf_bne_pc (a b : Byte) (s : State) :
    (skipIf (a != b) s).pc = if a = b then s.pc else s.pc + 2 := by
  rw [skipIf_pc, if_congr bne_iff_ne rfl rfl, ite_not]

/-! ### The four register skips (R106-R109) -/

/-- Settles O32: each word is the encoder's, and each instruction is `skipIf` on its condition. -/
theorem registerSkips : Obligations.RegisterSkips := by
  intro x y nn s
  refine ⟨⟨?_, _, rfl, skipIf_beq_pc _ _ s, frame_skipIf _ s⟩, ⟨?_, _, rfl, skipIf_bne_pc _ _ s, frame_skipIf _ s⟩,
    ⟨?_, _, rfl, skipIf_beq_pc _ _ s, frame_skipIf _ s⟩, ⟨?_, _, rfl, skipIf_bne_pc _ _ s, frame_skipIf _ s⟩⟩
  · exact (congrArg decodeWord (wordXNN_eq_formXNN 0x3 x nn)).trans (Laws.RoundTrip.seImm x nn)
  · exact (congrArg decodeWord (wordXNN_eq_formXNN 0x4 x nn)).trans (Laws.RoundTrip.sneImm x nn)
  · exact (congrArg decodeWord (wordXY_eq_formXYN 0x5 0x0 x y rfl)).trans (Laws.RoundTrip.seReg x y)
  · exact (congrArg decodeWord (wordXY_eq_formXYN 0x9 0x0 x y rfl)).trans (Laws.RoundTrip.sneReg x y)

end Sys2Proof.Machine

/-!
PROOFS. The ALU family (43_alu.md): the words of formats XNN and XY decode to their instructions, the two writes of
registers with their frames, and the ALU's results and flags in arithmetic.
-/
namespace Sys2Proof.Machine

/-! ### The encoding column's words decode (R69-R71) -/

/-- Format XNN: the family nibble is the row's pattern. -/
theorem decodeWord_wordXNN (op : BitVec 4) {x : Reg} {nn : Byte} {i : Instr} (h : encode i = formXNN op x nn) :
    decodeWord (wordXNN (op.toNat * 4096) x nn) = .ok i := by
  rw [wordXNN_eq_formXNN, ← h]
  exact decodeEncode i

/-- Family 8: the function nibble `n` stands in the row's pattern. -/
theorem decodeWord_wordXY_family8 (n : BitVec 4) {x y : Reg} {i : Instr} (h : encode i = formXYN 0x8 x y n) :
    decodeWord (wordXY (0x8000 + n.toNat) x y 0) = .ok i := by
  rw [wordXY_eq_formXYN 0x8 n x y (pattern := 0x8000 + n.toNat) (k := 0) rfl, ← h]
  exact decodeEncode i

/-! ### Writes of registers and what they keep (R89, R90) -/

/-- A write of the general registers changes nothing else. -/
theorem frame_regs (s : State) (v : Vector Byte 16) : Frame [.regs] s { s with v := v } := by
  intro p hp
  cases p with
  | regs => simp at hp
  | memory => exact fun _ => rfl
  | stack => exact ⟨rfl, rfl⟩
  | _ => rfl

/-- A write of one register keeps the others, VF included, and the rest of the state. -/
theorem setV_keeps (s : State) (x : Reg) (b : Byte) :
    OtherRegsKept [x] s (s.setV x b) ∧ Frame [.regs] s (s.setV x b) :=
  ⟨fun _ hr => getV_setV_ne s b (List.ne_of_not_mem_cons hr), frame_regs s _⟩

/-- A write of a result and the flag keeps the other registers and the rest of the state. -/
theorem setResultFlag_keeps (s : State) (x : Reg) (b f : Byte) :
    OtherRegsKept [x, VF] s (s.setResultFlag x b f) ∧ Frame [.regs] s (s.setResultFlag x b f) := by
  refine ⟨fun r hr => ?_, frame_regs s _⟩
  simp only [List.mem_cons, List.not_mem_nil, or_false, not_or] at hr
  exact getV_setResultFlag_ne s b f hr.1 hr.2

/-- Counting a draw adds the draw counter to what may have changed. -/
theorem frame_countDraw {s t : State} (h : Frame [.regs] s t) : Frame [.regs, .draws] s t.countDraw := by
  intro p hp
  have hk := h p fun hregs => hp (List.mem_append_left [Part.draws] hregs)
  cases p with
  | draws => simp at hp
  | _ => exact hk

/-! ### Results and flags in arithmetic (R31, R122) -/

theorem toNat_sum8 (a b : Byte) : (sum8 a b).toNat = (a.toNat + b.toNat) % 256 := BitVec.toNat_ofNat _ _

/-- The 256 added before the subtraction keeps it from being cut off at 0, and vanishes modulo 256. -/
theorem toNat_diff8 (a b : Byte) : ((diff8 a b).toNat : Int) = ((a.toNat : Int) - b.toNat) % 256 := by
  have hb := b.isLt
  rw [diff8, BitVec.toNat_ofNat]
  omega

theorem toNat_shiftRight_one (a : Byte) : (a >>> 1).toNat = a.toNat / 2 := by
  rw [BitVec.toNat_ushiftRight, Nat.shiftRight_eq_div_pow]

theorem toNat_shiftLeft_one (a : Byte) : (a <<< 1).toNat = a.toNat * 2 % 256 := by
  rw [BitVec.toNat_shiftLeft, Nat.shiftLeft_eq]

theorem carryFlag_eq (a b : Byte) : carryFlag a b = if a.toNat + b.toNat > 255 then 1 else 0 := by
  simp [carryFlag, bool01]

theorem notBorrowFlag_eq (a b : Byte) : notBorrowFlag a b = if a.toNat < b.toNat then 0 else 1 := by
  simp only [notBorrowFlag, bool01, decide_eq_true_eq, ← Nat.not_lt, ite_not]

theorem toNat_bool01 (c : Bool) : (bool01 c).toNat = c.toNat := by cases c <;> rfl

/-- A flag that is bit `k` of a byte, as a number. -/
theorem toNat_bool01_getLsbD (a : Byte) (k : Nat) : (bool01 (a.getLsbD k)).toNat = a.toNat / 2 ^ k % 2 :=
  (toNat_bool01 _).trans (Nat.toNat_testBit a.toNat k)

theorem toNat_lsbFlag (a : Byte) : (lsbFlag a).toNat = a.toNat % 2 := by
  rw [lsbFlag, toNat_bool01_getLsbD, Nat.pow_zero, Nat.div_one]

/-- Above bit 7 a byte has no other. -/
theorem toNat_msbFlag (a : Byte) : (msbFlag a).toNat = a.toNat / 128 := by
  have ha := a.isLt
  rw [msbFlag, toNat_bool01_getLsbD]
  omega

/-! ### The instructions that write a flag (R116-R120) -/

/-- Settles O35: the sum and the carry, the carry written last. -/
theorem addWithCarry : Obligations.AddWithCarry := fun x y s =>
  ⟨decodeWord_wordXY_family8 0x4 rfl, _, rfl,
    fun hx => by rw [getV_setResultFlag_result s _ _ hx, toNat_sum8],
    (getV_setResultFlag_flag s x _ _).trans (carryFlag_eq _ _), setResultFlag_keeps s x _ _⟩

/-- What SUB and SUBN write, for a minuend `a` and a subtrahend `b`: the difference and the not-borrow (R117, R119). -/
theorem setResultFlag_diff8 (s : State) (x : Reg) (a b : Byte) :
    (x ≠ VF → (((s.setResultFlag x (diff8 a b) (notBorrowFlag a b)).getV x).toNat : Int) =
      ((a.toNat : Int) - b.toNat) % 256) ∧
    (s.setResultFlag x (diff8 a b) (notBorrowFlag a b)).getV VF = (if a.toNat < b.toNat then 0 else 1) :=
  ⟨fun hx => by rw [getV_setResultFlag_result s _ _ hx, toNat_diff8],
    (getV_setResultFlag_flag s x _ _).trans (notBorrowFlag_eq a b)⟩

/-- Settles O36: SUB subtracts Vy from Vx and SUBN Vx from Vy. -/
theorem subtractWithNotBorrow : Obligations.SubtractWithNotBorrow := by
  intro x y s
  obtain ⟨hsub, hsubF⟩ := setResultFlag_diff8 s x (s.getV x) (s.getV y)
  obtain ⟨hsubn, hsubnF⟩ := setResultFlag_diff8 s x (s.getV y) (s.getV x)
  exact ⟨⟨decodeWord_wordXY_family8 0x5 rfl, _, rfl, hsub, hsubF, setResultFlag_keeps s x _ _⟩,
    decodeWord_wordXY_family8 0x7 rfl, _, rfl, hsubn, hsubnF, setResultFlag_keeps s x _ _⟩

/-- SHR reads Vx and no other register (R118). -/
theorem exec_shr (x y : Reg) (s : State) :
    exec (.shr x y) s = .next (s.setResultFlag x (s.getV x >>> 1) (lsbFlag (s.getV x))) := rfl

/-- SHL reads Vx and no other register (R120). -/
theorem exec_shl (x y : Reg) (s : State) :
    exec (.shl x y) s = .next (s.setResultFlag x (s.getV x <<< 1) (msbFlag (s.getV x))) := rfl

/-- Settles O37: each shift is a function of Vx alone, so any y gives the same, and its flag is the bit shifted out. -/
theorem shiftsByOne : Obligations.ShiftsByOne := by
  intro x y z s
  refine ⟨⟨decodeWord_wordXY_family8 0x6 rfl, (exec_shr x y s).trans (exec_shr x z s).symm, _, exec_shr x y s,
      fun hx => ?_, ?_, setResultFlag_keeps s x _ _⟩,
    decodeWord_wordXY_family8 0xE rfl, (exec_shl x y s).trans (exec_shl x z s).symm, _, exec_shl x y s,
      fun hx => ?_, ?_, setResultFlag_keeps s x _ _⟩
  · rw [getV_setResultFlag_result s _ _ hx, toNat_shiftRight_one]
  · rw [getV_setResultFlag_flag, toNat_lsbFlag]
  · rw [getV_setResultFlag_result s _ _ hx, toNat_shiftLeft_one]
  · rw [getV_setResultFlag_flag, toNat_msbFlag]

/-! ### The random byte (R121) -/

/-- Cxnn on the step's input `r` makes Vx `r AND nn`. -/
theorem getV_rndWith (r : Byte) (x : Reg) (nn : Byte) (s : State) : (rndWith r x nn s).getV x = r &&& nn :=
  getV_setV_same s x _

/-- The bytes Cxnn can give are the subsets of its mask: such a byte is its own draw, and a masked draw is one. -/
theorem and_mask_eq_iff_drawn (b : Byte) (x : Reg) (nn : Byte) (s : State) :
    b &&& nn = b ↔ ∃ r t, execWith r (.rnd x nn) s = .next t ∧ t.getV x = b := by
  constructor
  · intro hb
    exact ⟨b, _, rfl, (getV_rndWith b x nn s).trans hb⟩
  · rintro ⟨r, t, ht, rfl⟩
    cases ht
    rw [getV_rndWith, BitVec.and_assoc, BitVec.and_self]

/-- Settles O38: Cxnn is one register write, to which `exec` adds the count of the draw. -/
theorem randomIsMaskedFreeDraw : Obligations.RandomIsMaskedFreeDraw := by
  intro x nn s
  obtain ⟨hother, hframe⟩ := setV_keeps s x (s.draw &&& nn)
  exact ⟨decodeWord_wordXNN 0xC rfl, fun r => ⟨_, rfl, getV_rndWith r x nn s, setV_keeps s x _⟩,
    fun b => and_mask_eq_iff_drawn b x nn s, fun _ _ k _ h => execWith_draws k h,
    ⟨_, rfl, getV_rndWith s.draw x nn s, hother, frame_countDraw hframe⟩, rfl⟩

/-! ### The instructions that write no flag (R110-R115) -/

/-- Settles O33: three writes of Vx. -/
theorem loadsAndAddImmediate : Obligations.LoadsAndAddImmediate := fun x y nn s =>
  ⟨⟨decodeWord_wordXNN 0x6 rfl, _, rfl, getV_setV_same s x _, setV_keeps s x _⟩,
    ⟨decodeWord_wordXNN 0x7 rfl, _, rfl, by rw [getV_setV_same, toNat_sum8], setV_keeps s x _⟩,
    decodeWord_wordXY_family8 0x0 rfl, _, rfl, getV_setV_same s x _, setV_keeps s x _⟩

/-- Settles O34: three writes of Vx, whose bits are those of the library's bitwise operations. -/
theorem logicOperations : Obligations.LogicOperations := fun x y s =>
  ⟨⟨decodeWord_wordXY_family8 0x1 rfl, _, rfl, fun b => by rw [getV_setV_same, BitVec.getLsbD_or],
      setV_keeps s x _⟩,
    ⟨decodeWord_wordXY_family8 0x2 rfl, _, rfl, fun b => by rw [getV_setV_same, BitVec.getLsbD_and],
      setV_keeps s x _⟩,
    decodeWord_wordXY_family8 0x3 rfl, _, rfl, fun b => by rw [getV_setV_same, BitVec.getLsbD_xor],
      setV_keeps s x _⟩

end Sys2Proof.Machine

/-!
PROOFS. The index and memory family (44_index_memory.md): the words of format XF decode to their instructions, the range
check of a transfer in arithmetic, the three writes of I, and the transfers of digits and of register blocks at I.
-/
namespace Sys2Proof.Machine

/-! ### The encoding column's words decode (R69-R71) -/

/-- Format XF: the family nibble and the function byte stand in the row's pattern. -/
theorem decodeWord_wordX (op : BitVec 4) (f : Byte) {x : Reg} {i : Instr} (h : encode i = formXF op x f) :
    decodeWord (wordX (op.toNat * 4096 + f.toNat) x) = .ok i := by
  have hword : wordX (op.toNat * 4096 + f.toNat) x = encode i := by
    rw [h, wordX, formXF, formXNN]
    exact congrArg _ (by omega)
  exact hword ▸ decodeEncode i

/-! ### The writes of I (R123-R125) -/

/-- A write of I changes nothing else (R21). -/
theorem frame_index (s : State) (a : Word) : Frame [.index] s { s with i := a } := by
  intro p hp
  cases p with
  | index => simp at hp
  | regs | memory => exact fun _ => rfl
  | stack => exact ⟨rfl, rfl⟩
  | _ => rfl

/-- The sum wraps at 16 bits (R124). -/
theorem toNat_indexSum (x : Reg) (s : State) :
    (indexSum x s).toNat = (s.i.toNat + (s.getV x).toNat) % 65536 := BitVec.toNat_ofNat _ _

/-- Five times a u8 does not wrap at 16 bits, and the font stands at address 0 (R45, R125). -/
theorem toNat_glyphAddress (x : Reg) (s : State) : (glyphAddress x s).toNat = (s.getV x).toNat * 5 := by
  have hlt : (s.getV x).toNat * 5 < 65536 := by have := (s.getV x).isLt; omega
  rw [glyphAddress, BitVec.toNat_ofNat, Nat.zero_add, Nat.mod_eq_of_lt hlt]

/-- Settles O39: the three values that are written to I, each beside the frame of a write of I. -/
theorem indexWrites : Obligations.IndexWrites := fun nnn x s =>
  ⟨⟨Laws.RoundTrip.ldI nnn, _, rfl, toNat_absolute nnn, frame_index s _⟩,
    ⟨decodeWord_wordX 0xF 0x1E rfl, _, rfl, toNat_indexSum x s, frame_index s _⟩,
    decodeWord_wordX 0xF 0x29 rfl, _, rfl, toNat_glyphAddress x s, frame_index s _⟩

/-! ### The range check of a transfer (R52) -/

/-- An access of the bytes at offsets 0 to `n` is in range exactly when its last address is. -/
theorem inRange_succ_iff {base n : Nat} : inRange base (n + 1) = true ↔ base + n ≤ 0xFFF :=
  inRange_iff.trans (or_iff_right n.succ_ne_zero)

/-- An access of the bytes at offsets 0 to `n` whose last address exists runs its body. -/
theorem guardRange_of_le {base n : Nat} {s : State} {k : State → Result} (h : base + n ≤ 0xFFF) :
    guardRange base (n + 1) s k = k s := guardRange_in (inRange_succ_iff.2 h)

/-- An access of the bytes at offsets 0 to `n` whose last address does not exist faults (R142). -/
theorem guardRange_of_gt {base n : Nat} {s : State} {k : State → Result} (h : 0xFFF < base + n) :
    guardRange base (n + 1) s k = .fault (.addressOutOfRange (max base 0x1000) s.fetchAddr) :=
  guardRange_out (Bool.eq_false_iff.2 fun hr => Nat.not_le.2 h (inRange_succ_iff.1 hr))

/-- Fx33 guards three bytes at I and stores the digits (R126). -/
theorem exec_ldB (x : Reg) (s : State) : exec (.ldB x) s =
    guardRange s.i.toNat 3 s fun s => .next (s.writeBytes s.base (bcdDigits (s.getV x))) := rfl

/-- Fx55 guards x + 1 bytes at I and stores the registers (R127). -/
theorem exec_ldMemVx (x : Reg) (s : State) : exec (.ldMemVx x) s =
    guardRange s.i.toNat (x.val + 1) s fun s => .next (s.writeBytes s.base (blockRegs x s)) := rfl

/-- Fx65 guards x + 1 bytes at I and loads the registers (R128). -/
theorem exec_ldVxMem (x : Reg) (s : State) : exec (.ldVxMem x) s =
    guardRange s.i.toNat (x.val + 1) s fun s => .next { s with v := loadedRegs x s } := rfl

/-! ### Stores (R126, R127) -/

/-- A store changes memory only. -/
theorem frame_writeBytes (s : State) (base : Nat) (bs : List Byte) : Frame [.memory] s (s.writeBytes base bs) := by
  intro p hp
  cases p with
  | memory => simp at hp
  | regs => exact fun _ => rfl
  | stack => exact ⟨rfl, rfl⟩
  | _ => rfl

/-- A decimal digit of a byte, or its hundreds, fits a byte: nothing is cut off (R126). -/
theorem toNat_bcdDigits (b : Byte) :
    (bcdDigits b).map BitVec.toNat = [b.toNat / 100, b.toNat / 10 % 10, b.toNat % 10] := by
  have hhundreds : b.toNat / 100 % 256 = b.toNat / 100 := by have := b.isLt; omega
  have hdigit (n : Nat) : n % 10 % 256 = n % 10 := by omega
  simp [bcdDigits, hhundreds, hdigit]

/-- The byte an Fx33 stores at offset `k` is digit `k` of the value (R126). -/
theorem toNat_readByte_writeBytes_bcdDigits {s : State} (b : Byte) {k : Nat} (hm : Memory.wf s.mem = true)
    (hr : s.base + 2 ≤ 0xFFF) (hk : k < 3) :
    ((s.writeBytes s.base (bcdDigits b)).readByte (s.base + k)).toNat =
      [b.toNat / 100, b.toNat / 10 % 10, b.toNat % 10][k] := by
  have hend : s.base + (bcdDigits b).length ≤ Config.memSize :=
    end_of_inRange (inRange_succ_iff.2 hr) (Nat.succ_ne_zero 2)
  rw [readByte_writeBytes_in hm hend hk]
  exact (List.getElem_map BitVec.toNat).symm.trans (List.getElem_of_eq (toNat_bcdDigits b) hk)

/-- Settles O40: in range the three digits read back from the stored block; out of range it is the guard's fault. -/
theorem bcdStoresDigits : Obligations.BcdStoresDigits := by
  refine fun x s hm => ⟨decodeWord_wordX 0xF 0x33 rfl, fun hr => ?_,
    fun hr => (exec_ldB x s).trans (guardRange_of_gt hr)⟩
  have hdigit (k : Nat) (hk : k < 3) := toNat_readByte_writeBytes_bcdDigits (s.getV x) hm hr hk
  exact ⟨_, (exec_ldB x s).trans (guardRange_of_le hr),
    hdigit 0 (by decide), hdigit 1 (by decide), hdigit 2 (by decide),
    otherBytesKept_writeBytes s s.i.toNat (bcdDigits (s.getV x)), frame_writeBytes s _ _⟩

/-- Settles O41: in range each stored register reads back from the block; out of range it is the guard's fault. -/
theorem storeBlock : Obligations.StoreBlock := by
  refine fun x s hm => ⟨decodeWord_wordX 0xF 0x55 rfl, fun hr => ?_,
    fun hr => (exec_ldMemVx x s).trans (guardRange_of_gt hr)⟩
  have hother := otherBytesKept_writeBytes s s.base (blockRegs x s)
  rw [length_blockRegs] at hother
  exact ⟨_, (exec_ldMemVx x s).trans (guardRange_of_le hr),
    fun k hk => readByte_writeBytes_blockRegs hm (inRange_succ_iff.2 hr) hk, hother, frame_writeBytes s _ _⟩

/-! ### Loads (R128) -/

/-- A register the block reaches is loaded from its place in the block. -/
theorem getV_loadedRegs_le {x k : Reg} (s : State) (h : k ≤ x) :
    ({ s with v := loadedRegs x s } : State).getV k = s.readByte (s.i.toNat + k.val) :=
  (getElem_loadedRegs x k s).trans (if_pos h)

/-- A register above the block is kept. -/
theorem getV_loadedRegs_gt {x k : Reg} (s : State) (h : x < k) :
    ({ s with v := loadedRegs x s } : State).getV k = s.getV k :=
  (getElem_loadedRegs x k s).trans (if_neg (Fin.not_le.2 h))

/-- Settles O42: in range the registers are the loaded ones; out of range it is the guard's fault. -/
theorem loadBlock : Obligations.LoadBlock := fun x s =>
  ⟨decodeWord_wordX 0xF 0x65 rfl,
    fun hr => ⟨_, (exec_ldVxMem x s).trans (guardRange_of_le hr), fun _ => getV_loadedRegs_le s,
      fun _ => getV_loadedRegs_gt s, frame_regs s _⟩,
    fun hr => (exec_ldVxMem x s).trans (guardRange_of_gt hr)⟩

/-- An Fx65 that answers a next state loaded V0 to Vx (R128). -/
theorem exec_ldVxMem_next {x : Reg} {s t : State} (h : exec (.ldVxMem x) s = .next t) :
    t = { s with v := loadedRegs x s } := by
  obtain ⟨-, ht⟩ := guardRange_next ((exec_ldVxMem x s).symm.trans h)
  cases ht
  rfl

/-- Settles O43: the load reads the byte at I + k, which the store made register k. -/
theorem storeThenLoadRestores : Obligations.StoreThenLoadRestores := by
  intro x s t u w hm hstore hmem hi hload k hk
  obtain ⟨hr, rfl⟩ := exec_ldMemVx_next hstore
  obtain rfl := exec_ldVxMem_next hload
  calc ({ u with v := loadedRegs x u } : State).getV k
      = u.readByte (u.i.toNat + k.val) := getV_loadedRegs_le u hk
    _ = (s.writeBytes s.base (blockRegs x s)).readByte (s.base + k.val) := by
        rw [State.readByte, hmem, hi]; rfl
    _ = s.getV k := readByte_writeBytes_blockRegs hm hr hk

end Sys2Proof.Machine

/-!
PROOFS. The framebuffer and sprite family (45_sprite.md): what a draw does is said once, as the relation `Toggles`: a
set of cells is toggled, each once, and a lit one is a hit. It composes over disjoint sets, so a row toggles the cells of
its set bits, and the sprite those of its rows. No cell is met twice, as a row is narrower and a sprite lower than the
screen.
-/
namespace Sys2Proof.Machine

/-! ### The framebuffer (R28, R129) -/

/-- A framebuffer is its cells. -/
theorem fb_ext {f g : Framebuffer} (h : ∀ (x : Fin 64) (y : Fin 32), cell f x y = cell g x y) : f = g :=
  Vector.ext fun y hy => Vector.ext fun x hx => h ⟨x, hx⟩ ⟨y, hy⟩

@[simp] theorem cell_clearFb (x : Fin 64) (y : Fin 32) : cell clearFb x y = false := by
  simp [cell, clearFb]

/-- A write of the framebuffer changes nothing else. -/
theorem frame_screen (s : State) (f : Framebuffer) : Frame [.screen] s { s with fb := f } := by
  intro p hp
  cases p with
  | screen => simp at hp
  | regs | memory => exact fun _ => rfl
  | stack => exact ⟨rfl, rfl⟩
  | _ => rfl

/-- Settles O45: CLS is one write of the framebuffer, of unlit cells. -/
theorem clsClears : Obligations.ClsClears :=
  ⟨Laws.RoundTrip.cls, fun s => ⟨_, rfl, cell_clearFb, frame_screen s clearFb⟩⟩

/-! ### Toggling a set of cells -/

/-- From `c` to `c'` exactly the cells of `A` are toggled, and a lit one among them is a hit (R130). -/
structure Toggles (A : Fin 64 → Fin 32 → Prop) (c c' : Blit) : Prop where
  inside : ∀ {x y}, A x y → cell c'.fb x y = !cell c.fb x y
  outside : ∀ {x y}, ¬ A x y → cell c'.fb x y = cell c.fb x y
  hit : c'.hit = true ↔ c.hit = true ∨ ∃ x y, A x y ∧ cell c.fb x y = true

/-- Nothing done toggles nothing. -/
theorem Toggles.refl {A : Fin 64 → Fin 32 → Prop} (c : Blit) (hA : ∀ x y, ¬ A x y) : Toggles A c c where
  inside h := absurd h (hA _ _)
  outside _ := rfl
  hit := by simp [hA]

/-- One cell toggled. -/
theorem toggles_blitCell (c : Blit) (x : Fin 64) (y : Fin 32) :
    Toggles (fun cx cy => cy = y ∧ cx = x) c (blitCell c x y) where
  inside := by
    rintro _ _ ⟨rfl, rfl⟩
    exact (cell_toggleCell c.fb _ _ _ _).trans (if_pos ⟨rfl, rfl⟩)
  outside h := (cell_toggleCell c.fb _ _ _ _).trans (if_neg (mt And.symm h))
  hit := by simp [blitCell]

/-- Two toggles of disjoint sets, one after the other, toggle the union: the second finds its cells untouched. -/
theorem Toggles.trans {A B C : Fin 64 → Fin 32 → Prop} {c c' c'' : Blit} (hA : Toggles A c c')
    (hB : Toggles B c' c'') (hdisj : ∀ {x y}, A x y → ¬ B x y) (hC : ∀ {x y}, C x y ↔ A x y ∨ B x y) :
    Toggles C c c'' where
  inside := by
    intro x y h
    rcases hC.1 h with hAxy | hBxy
    · rw [hB.outside (hdisj hAxy), hA.inside hAxy]
    · rw [hB.inside hBxy, hA.outside fun hAxy => hdisj hAxy hBxy]
  outside := by
    intro x y h
    obtain ⟨hnA, hnB⟩ := not_or.1 (mt hC.2 h)
    rw [hB.outside hnB, hA.outside hnA]
  hit := by
    have huntouched : ∀ x y, B x y ∧ cell c'.fb x y = true ↔ B x y ∧ cell c.fb x y = true := fun x y =>
      and_congr_right fun hBxy => by rw [hA.outside fun hAxy => hdisj hAxy hBxy]
    simp only [hB.hit, hA.hit, huntouched, hC, or_and_right, exists_or, or_assoc]

/-! ### The cells a sprite covers (R130) -/

/-- Cell (cx, cy) lies under one of the bits 0 to `left - 1`, a set one, of a sprite row drawn at column `px` of screen
row `y`. -/
def RowCovered (px : Nat) (y : Fin 32) (byte : Byte) (left : Nat) (cx : Fin 64) (cy : Fin 32) : Prop :=
  cy = y ∧ ∃ b < left, byte.getLsbD b = true ∧ cx = wrapX px (7 - b)

/-- Cell (cx, cy) lies under the `n` sprite rows at memory address `base`, the first of them row `row` of the sprite. -/
def RowsCovered (m : Memory) (px py base row n : Nat) (cx : Fin 64) (cy : Fin 32) : Prop :=
  ∃ k < n, RowCovered px (wrapY py (row + k)) (Memory.read m (base + k)) 8 cx cy

/-- The columns of two different bits of one row are different: a row is narrower than the screen. -/
theorem wrapX_ne {px a b : Nat} (hab : b < a) (ha : a ≤ 7) : wrapX px (7 - a) ≠ wrapX px (7 - b) := by
  intro h
  have hval := congrArg Fin.val h
  simp only [wrapX_val] at hval
  omega

/-- Two different rows of one sprite stand in different screen rows: a sprite is lower than the screen. -/
theorem wrapY_ne {py a b : Nat} (hab : a < b) (hb : b < 32) : wrapY py a ≠ wrapY py b := by
  intro h
  have hval := congrArg Fin.val h
  simp only [wrapY_val] at hval
  omega

/-- The bits below `left + 1` are bit `left` and the bits below it. -/
theorem rowCovered_succ {px : Nat} {y : Fin 32} {byte : Byte} {left : Nat} {cx : Fin 64} {cy : Fin 32} :
    RowCovered px y byte (left + 1) cx cy ↔
      (cy = y ∧ byte.getLsbD left = true ∧ cx = wrapX px (7 - left)) ∨ RowCovered px y byte left cx cy := by
  rw [RowCovered, RowCovered, Nat.exists_lt_succ_right, or_comm, and_or_left]

/-- The first row and the rows after it. -/
theorem rowsCovered_succ {m : Memory} {px py base row n : Nat} {cx : Fin 64} {cy : Fin 32} :
    RowsCovered m px py base row (n + 1) cx cy ↔
      RowCovered px (wrapY py row) (Memory.read m base) 8 cx cy ∨
        RowsCovered m px py (base + 1) (row + 1) n cx cy := by
  simp only [RowsCovered, Nat.exists_lt_succ_left, Nat.add_zero, Nat.add_right_comm _ 1, Nat.add_assoc]

/-- The rows of a sprite that starts at I cover what the obligations call covered. -/
theorem rowsCovered_eq_covered (s : State) (px py n : Nat) :
    RowsCovered s.mem px py s.base 0 n = Covered s px py n := by
  ext cx cy
  constructor
  · rintro ⟨row, hrow, hcy, b, hb, hbit, hcx⟩
    have hbit' : 7 - (7 - b) = b := by omega
    refine ⟨row, 7 - b, hrow, by omega, by rw [hbit']; exact hbit, congrArg Fin.val hcx, ?_⟩
    rw [hcy, wrapY_val, Nat.zero_add]
  · rintro ⟨row, col, hrow, hcol, hbit, hcx, hcy⟩
    have hcol' : 7 - (7 - col) = col := by omega
    refine ⟨row, hrow, Fin.ext ?_, 7 - col, by omega, hbit, Fin.ext ?_⟩
    · rw [hcy, wrapY_val, Nat.zero_add]
    · rw [hcx, wrapX_val, hcol']

/-! ### A draw toggles the covered cells (R130) -/

/-- One bit of a row toggles its cell when it is set. -/
theorem toggles_bit (c : Blit) (b : Bool) (x : Fin 64) (y : Fin 32) :
    Toggles (fun cx cy => cy = y ∧ b = true ∧ cx = x) c (if b then blitCell c x y else c) := by
  cases b with
  | true => simpa using toggles_blitCell c x y
  | false => exact .refl c (by simp)

/-- A row toggles the cells of its set bits. -/
theorem toggles_blitRow (px : Nat) (y : Fin 32) (byte : Byte) : ∀ (left : Nat) (c : Blit), left ≤ 8 →
    Toggles (RowCovered px y byte left) c (blitRow px y byte c left)
  | 0, c, _ => .refl c (by simp [RowCovered])
  | left + 1, c, h => by
    refine (toggles_bit c _ _ y).trans (toggles_blitRow px y byte left _ (by omega)) ?_ rowCovered_succ
    rintro _ _ ⟨-, -, rfl⟩ ⟨-, b, hb, -, heq⟩
    exact wrapX_ne hb (by omega) heq

/-- The rows read from memory toggle the cells of their set bits. -/
theorem toggles_blitRows (m : Memory) (px py : Nat) : ∀ (n base row : Nat) (c : Blit), row + n ≤ 32 →
    Toggles (RowsCovered m px py base row n) c (blitRows px py c row (Memory.readBlock m base n))
  | 0, _, _, c, _ => .refl c (by simp [RowsCovered])
  | n + 1, base, row, c, h => by
    refine (toggles_blitRow px (wrapY py row) _ 8 c le_rfl).trans
      (toggles_blitRows m px py n (base + 1) (row + 1) _ (by omega)) ?_ rowsCovered_succ
    rintro _ _ ⟨rfl, -⟩ ⟨k, hk, heq, -⟩
    exact wrapY_ne (by omega) (by omega) heq

/-- What Dxyn draws in state `s`: the `n` bytes at I, at position (V[x], V[y]). -/
def drawn (x y : Reg) (n : Fin 16) (s : State) : Blit :=
  blit (s.getV x).toNat (s.getV y).toNat (Memory.readBlock s.mem s.base n.val) s.fb

/-- The cells under the set bits of the sprite that Dxyn draws in state `s`. -/
abbrev DrawCovers (x y : Reg) (n : Fin 16) (s : State) : Fin 64 → Fin 32 → Prop :=
  Covered s (s.getV x).toNat (s.getV y).toNat n.val

/-- A draw toggles the covered cells, starting with no hit. -/
theorem toggles_drawn (x y : Reg) (n : Fin 16) (s : State) :
    Toggles (DrawCovers x y n s) ⟨s.fb, false⟩ (drawn x y n s) := by
  rw [DrawCovers, ← rowsCovered_eq_covered]
  exact toggles_blitRows s.mem _ _ n.val s.base 0 ⟨s.fb, false⟩ (by omega)

/-- A draw hits exactly when a covered cell was lit. -/
theorem hit_drawn (x y : Reg) (n : Fin 16) (s : State) :
    (drawn x y n s).hit = true ↔ ∃ cx cy, DrawCovers x y n s cx cy ∧ cell s.fb cx cy = true := by
  simpa using (toggles_drawn x y n s).hit

/-! ### The instruction Dxyn -/

/-- Dxyn guards its n bytes at I and draws them (R130). -/
theorem exec_drw (x y : Reg) (n : Fin 16) (s : State) : exec (.drw x y n) s =
    guardRange s.i.toNat n.val s fun s => .next (s.withBlit (drawn x y n s)) := rfl

/-- A Dxyn that answers a next state drew. -/
theorem exec_drw_next {x y : Reg} {n : Fin 16} {s t : State} (h : exec (.drw x y n) s = .next t) :
    t = s.withBlit (drawn x y n s) := by
  obtain ⟨-, ht⟩ := guardRange_next ((exec_drw x y n s).symm.trans h)
  cases ht
  rfl

theorem bool01_cases (b : Bool) : bool01 b = 1 ∨ bool01 b = 0 := by cases b <;> decide

theorem bool01_eq_one {b : Bool} : bool01 b = 1 ↔ b = true := by cases b <;> decide

/-- VF after a draw is its collision flag (R89). -/
theorem getV_withBlit_flag (s : State) (c : Blit) : (s.withBlit c).getV VF = bool01 c.hit := getV_setV_same _ _ _

/-- A draw changes no register but VF. -/
theorem withBlit_otherRegsKept (s : State) (c : Blit) : OtherRegsKept [VF] s (s.withBlit c) :=
  fun _ hr => getV_setV_ne _ _ (List.ne_of_not_mem_cons hr)

/-- A draw changes registers and framebuffer only. -/
theorem frame_withBlit (s : State) (c : Blit) : Frame [.regs, .screen] s (s.withBlit c) := by
  intro p hp
  cases p with
  | regs | screen => simp at hp
  | memory => exact fun _ => rfl
  | stack => exact ⟨rfl, rfl⟩
  | _ => rfl

/-- VF is 1 after a draw exactly when a covered cell was lit before it. -/
theorem drawn_flag_eq_one (x y : Reg) (n : Fin 16) (s : State) :
    (s.withBlit (drawn x y n s)).getV VF = 1 ↔ ∃ cx cy, DrawCovers x y n s cx cy ∧ cell s.fb cx cy = true := by
  rw [getV_withBlit_flag, bool01_eq_one, hit_drawn]

/-- Settles O46: in range Dxyn toggles the covered cells, once each; out of range it is the guard's fault. -/
theorem drawTogglesCoveredCells : Obligations.DrawTogglesCoveredCells := by
  refine fun x y n s => ⟨?_, fun hr => ?_, fun ⟨hn, hr⟩ => ?_⟩
  · exact (congrArg decodeWord (wordXY_eq_formXYN 0xD (nibble n) x y rfl)).trans (Laws.RoundTrip.drw x y n)
  · have htoggles := toggles_drawn x y n s
    refine ⟨_, (exec_drw x y n s).trans (guardRange_in (inRange_iff.2 hr)),
      fun cx cy => ⟨htoggles.inside, htoggles.outside⟩, ?_, drawn_flag_eq_one x y n s,
      withBlit_otherRegsKept s _, frame_withBlit s _⟩
    exact getV_withBlit_flag s (drawn x y n s) ▸ bool01_cases _
  · refine (exec_drw x y n s).trans (guardRange_out (Bool.eq_false_iff.2 fun h => ?_))
    have := inRange_iff.1 h
    omega

/-! ### Two draws (R131) -/

/-- What a draw covers depends on I, memory and the position. -/
theorem drawCovers_congr {x y : Reg} {n : Fin 16} {s u : State} (hi : u.i = s.i)
    (hm : ∀ a, u.readByte a = s.readByte a) (hx : u.getV x = s.getV x) (hy : u.getV y = s.getV y) :
    DrawCovers x y n u = DrawCovers x y n s := by
  funext cx cy
  simp only [DrawCovers, Covered, hi, hm, hx, hy]

/-- Settles O47: a cell toggled twice is as it was, and the second draw finds a covered cell lit when the first found it
unlit. -/
theorem drawTwiceRestores : Obligations.DrawTwiceRestores := by
  intro x y n s t u w hst hfb hi hm hx hy huw
  obtain rfl := exec_drw_next hst
  obtain rfl := exec_drw_next huw
  have hcov := drawCovers_congr (n := n) hi hm hx hy
  have hfirst := toggles_drawn x y n s
  have hsecond := toggles_drawn x y n u
  rw [hcov, hfb] at hsecond
  constructor
  · refine fb_ext fun cx cy => ?_
    by_cases h : DrawCovers x y n s cx cy
    · exact (hsecond.inside h).trans (by rw [withBlit_fb, hfirst.inside h, Bool.not_not])
    · exact (hsecond.outside h).trans (hfirst.outside h)
  · rw [drawn_flag_eq_one, hcov, hfb]
    refine exists₂_congr fun cx cy => and_congr_right fun h => ?_
    rw [withBlit_fb, hfirst.inside h, Bool.not_eq_true']

/-- The reset state with every cell lit. -/
def allLit : State := { State.reset with fb := Vector.replicate 32 (Vector.replicate 64 true) }

/-- `allLit` after D001, which draws the font's first byte, 0xF0, at the top left. -/
def allLitDrawn : State := allLit.withBlit (drawn 0 0 1 allLit)

/-- Refutes O48: D001 twice from `allLit`. The first draw unlights the four cells it covers, so the second collides with
none of them. -/
theorem not_secondDrawAlwaysCollides : ¬ Obligations.SecondDrawAlwaysCollides := by
  intro h
  have hcollides : (allLitDrawn.withBlit (drawn 0 0 1 allLitDrawn)).getV 0xF = 1 :=
    h 0 0 1 allLit allLitDrawn allLitDrawn _ rfl rfl rfl (fun _ => rfl) rfl rfl rfl ⟨0, by decide, by decide⟩
  exact absurd hcollides (by decide)

end Sys2Proof.Machine

/-!
PROOFS. The keypad and timer family (46_keypad_timer.md): the key operand of a skip for each value of V[x], the capture
and the wait of Fx0A, and the copies between a register and a timer.
-/
namespace Sys2Proof.Machine

/-! ### The key skips (R132, R133) -/

/-- A key operand that names key `k` hands on its latch. -/
theorem withKey_of_eq {x : Reg} {s : State} {k : Fin 16} {f : Bool → Result} (h : (s.getV x).toNat = k.val) :
    withKey x s f = f s.keys[k] := by
  rcases withKey_cases x s f with ⟨j, hj, hf⟩ | ⟨hgt, -⟩
  · obtain rfl : j = k := Fin.ext (hj.symm.trans h)
    exact hf
  · omega

/-- A key operand above 15 names no latch (R144). -/
theorem withKey_of_gt {x : Reg} {s : State} {f : Bool → Result} (h : 15 < (s.getV x).toNat) :
    withKey x s f = .fault (.invalidKeyIndex (s.getV x) s.fetchAddr) := by
  rcases withKey_cases x s f with ⟨j, hj, -⟩ | ⟨-, hf⟩
  · omega
  · exact hf

/-- The skip on the opposite condition. -/
theorem skipIf_not_pc (c : Bool) (s : State) : (skipIf (!c) s).pc = if c then s.pc else s.pc + 2 := by
  cases c <;> rfl

/-- SKP skips on the latch of its key operand (R132). -/
theorem exec_skp (x : Reg) (s : State) : exec (.skp x) s = withKey x s fun p => .next (skipIf p s) := rfl

/-- SKNP skips on the opposite (R133). -/
theorem exec_sknp (x : Reg) (s : State) : exec (.sknp x) s = withKey x s fun p => .next (skipIf (!p) s) := rfl

/-- Settles O49: each instruction is `skipIf` on the latch that its operand names, or the operand's fault. -/
theorem keySkips : Obligations.KeySkips := by
  refine fun x s => ⟨decodeWord_wordX 0xE 0x9E rfl, decodeWord_wordX 0xE 0xA1 rfl, fun k hk => ⟨?_, ?_⟩, fun hgt => ?_⟩
  · exact ⟨_, (exec_skp x s).trans (withKey_of_eq hk), skipIf_pc s s.keys[k], frame_skipIf _ s⟩
  · exact ⟨_, (exec_sknp x s).trans (withKey_of_eq hk), skipIf_not_pc s.keys[k] s, frame_skipIf _ s⟩
  · exact ⟨(exec_skp x s).trans (withKey_of_gt hgt), (exec_sknp x s).trans (withKey_of_gt hgt)⟩

/-! ### The wait for a key (R134) -/

/-- Fx0A with a key latched captures the lowest. -/
theorem exec_ldVxK_of_some {x : Reg} {s : State} {k : Fin 16} (h : lowestKey s = some k) :
    exec (.ldVxK x) s = .next (s.setV x (BitVec.ofNat 8 k.val)) := by
  simp only [exec, execLdVxK, h]

/-- Fx0A with no key latched moves PC back to the address it was fetched from. -/
theorem exec_ldVxK_of_none {x : Reg} {s : State} (h : lowestKey s = none) :
    exec (.ldVxK x) s = .next (jumpTo s.fetchAddr s) := by
  simp only [exec, execLdVxK, h]

/-- The value captured for key `k` is `k`. -/
theorem toNat_getV_setV_key (s : State) (x : Reg) (k : Fin 16) :
    ((s.setV x (BitVec.ofNat 8 k.val)).getV x).toNat = k.val := by
  rw [getV_setV_same, BitVec.toNat_ofNat, Nat.mod_eq_of_lt (by omega)]

/-- Settles O50: a capture is one register write, a wait one jump. -/
theorem keyWaitCapturesLowest : Obligations.KeyWaitCapturesLowest := fun x s =>
  ⟨decodeWord_wordX 0xF 0x0A rfl,
    fun k hk hlow => ⟨_, exec_ldVxK_of_some (lowestKey_eq_some hk hlow), toNat_getV_setV_key s x k, setV_keeps s x _⟩,
    fun hnone => ⟨_, exec_ldVxK_of_none (lowestKey_eq_none hnone), rfl, frame_jumpTo _ s⟩⟩

/-- Moving PC back after the fetch advance gives the state before it (R35, R85). -/
theorem jumpTo_fetchAddr_advance (s : State) : jumpTo s.advance.fetchAddr s.advance = s := by
  rw [fetchAddr_advance]
  rfl

/-- Settles O51: the wait undoes the fetch advance, which left the latch as it was. -/
theorem waitingStepChangesNothing : Obligations.WaitingStepChangesNothing := fun x s hp hd hnone =>
  calc step s
    _ = exec (.ldVxK x) s.advance := cycle_of_decode hp hd
    _ = .next (jumpTo s.advance.fetchAddr s.advance) := exec_ldVxK_of_none (lowestKey_eq_none hnone)
    _ = .next s := congrArg _ (jumpTo_fetchAddr_advance s)

/-! ### The timer instructions (R135-R137) -/

/-- A write of DT changes nothing else. -/
theorem frame_delay (s : State) (b : Byte) : Frame [.delay] s { s with dt := b } := by
  intro p hp
  cases p with
  | delay => simp at hp
  | regs | memory => exact fun _ => rfl
  | stack => exact ⟨rfl, rfl⟩
  | _ => rfl

/-- A write of ST changes nothing else. -/
theorem frame_sound (s : State) (b : Byte) : Frame [.sound] s { s with st := b } := by
  intro p hp
  cases p with
  | sound => simp at hp
  | regs | memory => exact fun _ => rfl
  | stack => exact ⟨rfl, rfl⟩
  | _ => rfl

/-- Settles O52: one write of Vx, one of DT and one of ST, each beside its frame. -/
theorem timerTransfers : Obligations.TimerTransfers := fun x s =>
  ⟨⟨decodeWord_wordX 0xF 0x07 rfl, _, rfl, getV_setV_same s x s.dt, setV_keeps s x s.dt⟩,
    ⟨decodeWord_wordX 0xF 0x15 rfl, _, rfl, rfl, frame_delay s (s.getV x)⟩,
    decodeWord_wordX 0xF 0x18 rfl, _, rfl, rfl, frame_sound s (s.getV x)⟩

end Sys2Proof.Machine

/-!
PROOFS. The exceptions and host operations family (60_exceptions.md): the faults an instruction can raise, said once as
the relation `Raises`, and how an execute phase ends; then the host operations one by one and runs of schedules.
-/
namespace Sys2Proof.Machine

/-! ### How an execute phase ends (R138-R147) -/

/-- The four instructions that access memory at I (R142). -/
def AccessesMemory (i : Instr) : Prop :=
  (∃ x y n, i = .drw x y n) ∨ ∃ x, i = .ldB x ∨ i = .ldMemVx x ∨ i = .ldVxMem x

/-- The faults that an instruction can raise in state `s`, each with its info (R140-R142, R144). -/
inductive Raises (s : State) : Instr → Fault → Prop
  | overflow (nnn : Addr) : Raises s (.call nnn) (.stackOverflow s.pc s.fetchAddr)
  | underflow : Raises s .ret (.stackUnderflow s.fetchAddr)
  | range {i : Instr} (hi : AccessesMemory i) : Raises s i (.addressOutOfRange (max s.i.toNat 0x1000) s.fetchAddr)
  | key {i : Instr} (x : Reg) (hi : i = .skp x ∨ i = .sknp x) :
      Raises s i (.invalidKeyIndex (s.getV x) s.fetchAddr)

/-- An execute phase ends in one of two ways, and the instruction's condition says which. -/
inductive Ends (i : Instr) (s : State) : Prop
  | next {t : State} (hc : completes i s) (hx : exec i s = .next t)
  | fault {f : Fault} (hc : ¬ completes i s) (hf : Raises s i f) (hx : exec i s = .fault f)

/-- RET completes when there is an address to pop (R141). -/
theorem ends_ret (s : State) : Ends .ret s := by
  rcases Nat.eq_zero_or_pos s.sp.val with hz | hpos
  · exact .fault (Nat.not_lt.2 (Nat.le_of_eq hz)) .underflow (exec_ret_empty hz)
  · have hk : s.sp.val - 1 < 16 := by have := sp_le s; omega
    exact .next hpos (exec_ret_of_eq (k := ⟨_, hk⟩) (Nat.succ_pred_eq_of_pos hpos).symm)

/-- CALL completes when there is a free slot (R140). -/
theorem ends_call (nnn : Addr) (s : State) : Ends (.call nnn) s := by
  by_cases hsp : s.sp.val < 16
  · exact .next hsp (exec_call_of_lt nnn hsp)
  · exact .fault hsp (.overflow nnn) (exec_call_full nnn (Nat.le_antisymm (sp_le s) (Nat.le_of_not_lt hsp)))

/-- A memory access at I completes when its range exists (R142). -/
theorem ends_of_guardRange {i : Instr} {s : State} {count : Nat} {body : State → State} (hi : AccessesMemory i)
    (hc : completes i s ↔ inRange s.i.toNat count = true)
    (hx : exec i s = guardRange s.i.toNat count s fun s => .next (body s)) : Ends i s := by
  by_cases hr : inRange s.i.toNat count = true
  · exact .next (hc.2 hr) (hx.trans (guardRange_in hr))
  · exact .fault (mt hc.1 hr) (.range hi) (hx.trans (guardRange_out (Bool.eq_false_iff.2 hr)))

/-- A key skip completes when its operand is a key (R144). -/
theorem ends_of_withKey {i : Instr} {s : State} {x : Reg} {body : Bool → State} (hi : i = .skp x ∨ i = .sknp x)
    (hc : completes i s ↔ (s.getV x).toNat ≤ 15) (hx : exec i s = withKey x s fun p => .next (body p)) :
    Ends i s := by
  rcases withKey_cases x s fun p => .next (body p) with ⟨j, hj, hk⟩ | ⟨hgt, hk⟩
  · exact .next (hc.2 (by omega)) (hx.trans hk)
  · exact .fault (mt hc.1 (Nat.not_le.2 hgt)) (.key x hi) (hx.trans hk)

/-- Fx0A completes with and without a latched key (R134). -/
theorem ends_ldVxK (x : Reg) (s : State) : Ends (.ldVxK x) s := by
  cases hk : lowestKey s with
  | some k => exact .next trivial (exec_ldVxK_of_some hk)
  | none => exact .next trivial (exec_ldVxK_of_none hk)

/-- Every execute phase ends so; none is refused. -/
theorem exec_ends (i : Instr) (s : State) : Ends i s := by
  cases i with
  | ret => exact ends_ret s
  | call nnn => exact ends_call nnn s
  | drw x y n => exact ends_of_guardRange (.inl ⟨x, y, n, rfl⟩) inRange_iff.symm (exec_drw x y n s)
  | ldB x => exact ends_of_guardRange (.inr ⟨x, .inl rfl⟩) inRange_succ_iff.symm (exec_ldB x s)
  | ldMemVx x => exact ends_of_guardRange (.inr ⟨x, .inr (.inl rfl)⟩) inRange_succ_iff.symm (exec_ldMemVx x s)
  | ldVxMem x => exact ends_of_guardRange (.inr ⟨x, .inr (.inr rfl)⟩) inRange_succ_iff.symm (exec_ldVxMem x s)
  | skp x => exact ends_of_withKey (.inl rfl) Iff.rfl (exec_skp x s)
  | sknp x => exact ends_of_withKey (.inr rfl) Iff.rfl (exec_sknp x s)
  | ldVxK x => exact ends_ldVxK x s
  | _ => exact .next trivial rfl

/-- An instruction answers a next state exactly under its condition. -/
theorem exec_next_iff {i : Instr} {s : State} : (∃ t, exec i s = .next t) ↔ completes i s := by
  rcases exec_ends i s with ⟨hc, hx⟩ | ⟨hc, -, hx⟩
  · exact iff_of_true ⟨_, hx⟩ hc
  · exact iff_of_false (by simp [hx]) hc

/-- A fault of an execute phase is one that its instruction can raise. -/
theorem raises_of_exec {i : Instr} {s : State} {f : Fault} (h : exec i s = .fault f) : Raises s i f := by
  rcases exec_ends i s with ⟨-, hx⟩ | ⟨-, hf, hx⟩
  · rw [hx] at h; cases h
  · rw [hx] at h; cases h; exact hf

/-- No instruction is refused (R152). -/
theorem exec_ne_refused (i : Instr) (s : State) (r : Refusal) : exec i s ≠ .refused r := by
  rcases exec_ends i s with ⟨-, hx⟩ | ⟨-, -, hx⟩ <;> simp [hx]

/-- No step is refused: its fetch and its decode only fault. -/
theorem step_ne_refused (s : State) (r : Refusal) : step s ≠ .refused r := by
  rcases step_cases s with ⟨-, hs⟩ | ⟨-, -, hs⟩ | ⟨-, i, -, hs⟩
  · simp [hs]
  · simp [hs]
  · rw [hs]; exact exec_ne_refused i _ r

/-- Settles O14: of the way an execute phase ends. -/
theorem execCompletesExactly : Obligations.ExecCompletesExactly := fun i s =>
  ⟨exec_next_iff, exec_ne_refused i s, step_ne_refused s⟩

/-- Settles O13: each fault that can be raised is of its instruction's kind, and the fetch comes before the decode. -/
theorem faultKindsByInstruction : Obligations.FaultKindsByInstruction := by
  constructor
  · intro i s f h
    cases raises_of_exec h with
    | overflow nnn => exact .inl ⟨⟨nnn, rfl⟩, rfl⟩
    | underflow => exact .inr (.inl ⟨rfl, rfl⟩)
    | range hi => exact .inr (.inr (.inl ⟨hi, rfl⟩))
    | key x hi => exact .inr (.inr (.inr ⟨⟨x, hi⟩, rfl⟩))
  · intro s w pc h
    rcases step_cases s with ⟨-, hs⟩ | ⟨hp, -⟩ | ⟨hp, -⟩
    · rw [hs] at h; cases h
    · exact hp
    · exact hp

/-! ### Faults of the host operations (R139, R143, R145, R146) -/

/-- The execute phase on an input is always `exec` of some instruction: of Cxnn, that of the load of the masked byte. -/
theorem exists_exec_eq_execWith (r : Byte) (i : Instr) : ∃ j, ∀ s, execWith r i s = exec j s := by
  by_cases hi : ∃ x nn, i = .rnd x nn
  · obtain ⟨x, nn, rfl⟩ := hi
    exact ⟨.ldImm x (r &&& nn), fun _ => rfl⟩
  · exact ⟨i, fun s => execWith_eq_exec fun x nn hx => hi ⟨x, nn, hx⟩⟩

/-- The fault of an execute phase carries A and has one of four codes (R145). -/
theorem Raises.pc_code {s : State} {i : Instr} {f : Fault} (h : Raises s i f) :
    f.pc? = some s.fetchAddr ∧ f.code ∈ [2, 3, 4, 6] := by
  cases h <;> exact ⟨rfl, by simp [Fault.code]⟩

/-- The fault of a step carries the PC before it and is not RomTooLarge (R145). -/
theorem stepWith_fault_pc_code {r : Byte} {s : State} {f : Fault} (h : stepWith r s = .fault f) :
    f.pc? = some s.pc ∧ f.code ∈ [1, 2, 3, 4, 6] := by
  rcases stepWith_cases r s with ⟨-, hs⟩ | ⟨-, -, hs⟩ | ⟨-, i, -, hs⟩
  · rw [hs] at h; cases h; exact ⟨rfl, by simp [Fault.code]⟩
  · rw [hs] at h; cases h; exact ⟨rfl, by simp [Fault.code]⟩
  · obtain ⟨j, hj⟩ := exists_exec_eq_execWith r i
    rw [hs, hj] at h
    obtain ⟨hpc, hcode⟩ := (raises_of_exec h).pc_code
    rw [fetchAddr_advance] at hpc
    exact ⟨hpc, List.mem_cons_of_mem 1 hcode⟩

/-- An operation `step` faults with the fault of its cycle. -/
theorem apply_step_fault {font : Vector Byte Config.fontBytes} {r : Byte} {s : State} {f : Fault}
    (h : (HostOp.step r).apply font s = .fault f) : stepWith r s = .fault f := by
  simp only [HostOp.apply] at h
  split at h
  · cases h
  · cases h; exact ‹_›
  · cases h

/-- A load that faults was given an image that does not fit (R143). -/
theorem apply_load_fault {font : Vector Byte Config.fontBytes} {image : List Byte} {s : State} {f : Fault}
    (h : (HostOp.load image).apply font s = .fault f) :
    Config.maxRom < image.length ∧ f = .romTooLarge image.length := by
  simp only [HostOp.apply] at h
  split at h
  · cases h
  · cases h; exact ⟨Nat.lt_of_not_le ‹_›, rfl⟩

/-- A key_set writes a latch or is refused; it does not fault (R156). -/
theorem apply_keySet_ne_fault (font : Vector Byte Config.fontBytes) (k : Nat) (p : Bool) (s : State) (f : Fault) :
    (HostOp.keySet k p).apply font s ≠ .fault f := by
  simp only [HostOp.apply]
  split <;> simp

/-- Settles O11: operation by operation; the codes are by definition. -/
theorem faultValuesOfOperations : Obligations.FaultValuesOfOperations := by
  refine ⟨fun font op s f h => ?_, fun _ _ _ _ _ _ => ⟨rfl, rfl, rfl, rfl, rfl, rfl⟩⟩
  cases op with
  | step r => exact .inl ⟨⟨r, rfl⟩, stepWith_fault_pc_code (apply_step_fault h)⟩
  | load image => exact .inr ⟨image, rfl, apply_load_fault h⟩
  | keySet k p => exact absurd h (apply_keySet_ne_fault font k p s f)
  | tick | reset | fbRead => cases h

/-- Settles O12: `stateAfter` answers the state before a fault. -/
theorem faultLeavesNoTrace : Obligations.FaultLeavesNoTrace := by
  intro font op s f h
  rw [HostOp.stateAfter, h]

/-- In range a cycle that fetches a word of no row ends at its decode, whatever its execute phase (R87, R139). -/
theorem cycle_of_not_wellFormed {execute : Instr → State → Result} {s : State} (hp : s.pc.toNat ≤ 0xFFE)
    (hw : wordWellFormed s.fetchWord = false) : cycle execute s = .fault (.unknownOpcode s.fetchWord s.pc) := by
  rcases cycle_cases execute s with ⟨hgt, -⟩ | ⟨-, -, hs⟩ | ⟨-, i, hd, -⟩
  · omega
  · exact hs
  · have hwf : wordWellFormed s.fetchWord = true := (decodesExactlyTheTable.2 _).1.2 ⟨i, hd⟩
    rw [hw] at hwf
    cases hwf

/-- Settles O10: `step` and the operation `step` are both cycles. -/
theorem unknownOpcodeFaults : Obligations.UnknownOpcodeFaults := fun _ _ _ hp hw =>
  ⟨cycle_of_not_wellFormed hp hw, stateAfter_step_of_fault (cycle_of_not_wellFormed hp hw)⟩

/-! ### The timer tick, key_set and fb_read (R154-R157) -/

/-- A timer counts down and stops at 0 (R154). -/
theorem toNat_countDown (b : Byte) : (countDown b).toNat = b.toNat - 1 := by
  have hb := b.isLt
  rw [countDown, BitVec.toNat_ofNat, Nat.mod_eq_of_lt (by omega)]

/-- The signal is given when ST is 1 (R155). -/
theorem toneStop_eq (s : State) : toneStop s = decide (s.st.toNat = 1) :=
  decide_eq_decide.2 (BitVec.toNat_inj (y := 1)).symm

/-- A tick changes the two timers only. -/
theorem frame_tick (s : State) : Frame [.delay, .sound] s (tick s) := by
  intro p hp
  cases p with
  | delay | sound => simp at hp
  | regs | memory => exact fun _ => rfl
  | stack => exact ⟨rfl, rfl⟩
  | _ => rfl

/-- Only a tick replies with the signal (R155). -/
theorem eq_tick_of_toneStop {font : Vector Byte Config.fontBytes} {op : HostOp} {s t : State} {b : Bool}
    (h : op.apply font s = .next (t, .toneStop b)) : op = .tick := by
  cases op with
  | tick => rfl
  | step r => obtain ⟨-, hy⟩ := apply_step_next h; cases hy
  | keySet k p => obtain ⟨-, -, hy⟩ := apply_keySet_next h; cases hy
  | load image => obtain ⟨-, -, hy⟩ := apply_load_next h; cases hy
  | reset | fbRead => cases h

/-- Settles O53: the two timers and the signal in arithmetic, and the replies of the other operations. -/
theorem tickCountsDown : Obligations.TickCountsDown := by
  refine fun font s => ⟨⟨tick s, ?_, toNat_countDown s.dt, toNat_countDown s.st, frame_tick s⟩,
    fun _ _ _ => eq_tick_of_toneStop⟩
  rw [← toneStop_eq]
  rfl

/-- A write of one latch changes the keypad only. -/
theorem frame_keySet (k : Fin Config.numKeys) (p : Bool) (s : State) : Frame [.keypad] s (keySet k p s) := by
  intro q hq
  cases q with
  | keypad => simp at hq
  | regs | memory => exact fun _ => rfl
  | stack => exact ⟨rfl, rfl⟩
  | _ => rfl

/-- Settles O54: an index that is a key writes its latch alone; any other is refused. -/
theorem keySetWritesOneLatch : Obligations.KeySetWritesOneLatch := by
  refine fun font p s => ⟨fun k => ⟨keySet k p s, dif_pos k.isLt, ?_, fun j hj => ?_, frame_keySet k p s⟩,
    fun k hk => dif_neg (Nat.not_lt.2 hk)⟩
  · simp
  · have hne : k.val ≠ j.val := fun e => hj (Fin.ext e.symm)
    simp [hne]

/-- Settles O58: by the definition of the operation. -/
theorem fbReadIsReadOnly : Obligations.FbReadIsReadOnly := fun _ _ => rfl

/-! ### Runs of schedules (R158, R172) -/

/-- How a run of `rest` continues a run that ended so far in the given way. -/
def continueRun (font : Vector Byte Config.fontBytes) (rest : List HostOp) : Result → Result
  | .next t => runSchedule font rest t
  | .fault f => .fault f
  | .refused r => .refused r

/-- A schedule that is cut in two is run in two. -/
theorem runSchedule_append (font : Vector Byte Config.fontBytes) (rest : List HostOp) :
    ∀ (ops : List HostOp) (s : State),
      runSchedule font (ops ++ rest) s = continueRun font rest (runSchedule font ops s)
  | [], _ => rfl
  | op :: ops, s => by
    rw [List.cons_append, runSchedule, runSchedule]
    cases op.apply font s with
    | next p => exact runSchedule_append font rest ops p.1
    | fault f => rfl
    | refused r => rfl

/-- Settles O59: of the run that is cut in two. -/
theorem scheduleStopsAtFirstFault : Obligations.ScheduleStopsAtFirstFault := fun font ops rest s =>
  ⟨fun t h => by rw [runSchedule_append, h, continueRun], fun f h => by rw [runSchedule_append, h, continueRun]⟩

/-- A run starts with its first operation. -/
theorem runSchedule_cons_of_next {font : Vector Byte Config.fontBytes} {op : HostOp} {s t : State} {y : Reply}
    (ops : List HostOp) (h : op.apply font s = .next (t, y)) :
    runSchedule font (op :: ops) s = runSchedule font ops t := by
  rw [runSchedule, h]

/-- A run that completes has a first operation that completes. -/
theorem runSchedule_cons_next {font : Vector Byte Config.fontBytes} {op : HostOp} {ops : List HostOp} {s u : State}
    (h : runSchedule font (op :: ops) s = .next u) :
    ∃ t y, op.apply font s = .next (t, y) ∧ runSchedule font ops t = .next u := by
  rw [runSchedule] at h
  split at h
  · exact ⟨_, _, ‹_›, h⟩
  · cases h
  · cases h

/-- What every operation that completes keeps, every run that completes keeps. -/
theorem runSchedule_keeps {font : Vector Byte Config.fontBytes} {P : State → Prop}
    (hop : ∀ {op : HostOp} {s t : State} {y : Reply}, op.apply font s = .next (t, y) → P s → P t) :
    ∀ {ops : List HostOp} {s t : State}, P s → runSchedule font ops s = .next t → P t
  | [], _, _, hs, h => by cases h; exact hs
  | _ :: _, _, _, hs, h => by
    obtain ⟨_, _, hfirst, hrest⟩ := runSchedule_cons_next h
    exact runSchedule_keeps hop (hop hfirst hs) hrest

/-- The operation `step` keeps the invariant, as a step does: it ran one effect on the advanced state. -/
theorem stepWith_keeps_inv {r : Byte} {s t : State} (h : stepWith r s = .next t) (hi : Inv s) : Inv t := by
  obtain ⟨hp, i, -, h⟩ := stepWith_next h
  obtain ⟨j, hj⟩ := exists_exec_eq_execWith r i
  rw [hj] at h
  have hpc := toNat_advance_pc hp
  exact (effect_of_exec h).keeps_inv (by omega) (by omega) (inv_advance hp hi)

/-- The load of an image that fits keeps the invariant: it stores inside memory and sets PC to 0x200 (R65). -/
theorem inv_loadImage {image : List Byte} {s : State} (hlen : image.length ≤ Config.maxRom) (hi : Inv s) :
    Inv (loadImage image s) := by
  obtain ⟨hm, -, hl⟩ := hi
  have hfit : Config.progBase + image.length ≤ Config.memSize := Nat.add_le_of_le_sub' (by decide) hlen
  exact ⟨wf_writeBlock image hfit hm, by rw [loadImage_pc]; decide, hl⟩

/-- Every operation that completes keeps the invariant. -/
theorem apply_keeps_inv {font : Vector Byte Config.fontBytes} {op : HostOp} {s t : State} {y : Reply}
    (h : op.apply font s = .next (t, y)) (hi : Inv s) : Inv t := by
  cases op with
  | step r => exact stepWith_keeps_inv (apply_step_next h).1 hi
  | tick => cases h; exact hi
  | keySet k p => obtain ⟨_, rfl, -⟩ := apply_keySet_next h; exact hi
  | reset => cases h; exact resetMeetsInvariant.2 font
  | load image => obtain ⟨hlen, rfl, -⟩ := apply_load_next h; exact inv_loadImage hlen hi
  | fbRead => cases h; exact hi

/-- Settles O17: what each operation keeps, a run keeps. -/
theorem scheduleKeepsInvariant : Obligations.ScheduleKeepsInvariant := fun _ _ _ _ =>
  runSchedule_keeps apply_keeps_inv

/-- An operation other than `step`, with a key index up to 15 and an image that fits, completes (R65, R145, R156). -/
theorem apply_completes (font : Vector Byte Config.fontBytes) {op : HostOp} (s : State) (hstep : ∀ r, op ≠ .step r)
    (hkey : op.wellFormed = true) (hload : ∀ image, op = .load image → image.length ≤ Config.maxRom) :
    ∃ t y, op.apply font s = .next (t, y) := by
  cases op with
  | step r => exact absurd rfl (hstep r)
  | keySet k p => exact ⟨_, _, dif_pos (of_decide_eq_true hkey)⟩
  | load image => exact ⟨_, _, if_pos (hload image rfl)⟩
  | tick | reset | fbRead => exact ⟨_, _, rfl⟩

/-- Settles O60: each operation completes, from whatever state the ones before it left. -/
theorem schedulesWithoutStepsAreSafe : Obligations.SchedulesWithoutStepsAreSafe := by
  intro font ops
  induction ops with
  | nil => exact fun s _ => ⟨s, rfl⟩
  | cons op ops ih =>
    intro s h
    obtain ⟨⟨hstep, hkey, hload⟩, hops⟩ := List.forall_mem_cons.1 h
    obtain ⟨t, y, hop⟩ := apply_completes font s hstep hkey hload
    rw [SafeRun, runSchedule_cons_of_next ops hop]
    exact ih t hops

end Sys2Proof.Machine

/-!
PROOFS. The reset family (70_reset_and_hazards.md): reset memory lists nothing, and storing what it reads as, the default
font among it, lists nothing either.
-/
namespace Sys2Proof.Machine

/-- Storing in reset memory the byte that it reads as lists nothing (log 6). -/
theorem write_nil_unlisted (a : Nat) : Memory.write [] a (unlisted a) = [] := if_pos rfl

/-- Storing in reset memory a block that was read from it at the same addresses lists nothing. -/
theorem writeBlock_nil_readBlock_nil : ∀ n base : Nat, Memory.writeBlock [] base (Memory.readBlock [] base n) = []
  | 0, _ => rfl
  | n + 1, base => by
    rw [Memory.readBlock, Memory.read, Memory.writeBlock, write_nil_unlisted]
    exact writeBlock_nil_readBlock_nil n (base + 1)

/-- The default font is what reset memory reads as at the font's addresses (R45, R46; log 1). -/
theorem defaultFont_eq_readBlock_nil : defaultFont = Memory.readBlock [] Config.fontBase Config.fontBytes := by decide

/-- The reset state for the default font is `State.reset` (R46; log 1). -/
theorem resetWith_of_eq_defaultFont {font : Vector Byte Config.fontBytes} (h : font.toList = defaultFont) :
    State.resetWith font = State.reset := by
  have hmem : Memory.writeBlock State.reset.mem Config.fontBase font.toList = State.reset.mem := by
    rw [h, defaultFont_eq_readBlock_nil]
    exact writeBlock_nil_readBlock_nil Config.fontBytes Config.fontBase
  rw [State.resetWith, State.writeBytes, hmem]

/-- Settles O57: reset keeps the draw counter alone, which is 0 in a constructed state; and the default font lists nothing. -/
theorem constructionIsReset : Obligations.ConstructionIsReset := fun _ => ⟨rfl, resetWith_of_eq_defaultFont⟩

end Sys2Proof.Machine
